-- ==== Sys2Proof/Word.lean ====
section
/-! DEFINITION. The data every other file speaks of: bytes, byte sequences, sequences of a fixed length (block, key,
IV, half), the 64-bit counter, the two engines, the five operations and the command record
(spec/00_scope.md section 6, R6; spec/30_encoding.md R60). -/

namespace Sys2Proof

/-- A byte of 8 bits (R6 `BYTE_BITS`, R41). -/
abbrev Byte := BitVec 8

/-- A byte sequence of any length, index 0 first (00_scope.md section 6, R41). -/
abbrev Bytes := List Byte

/-- An unsigned 64-bit integer (R6 `COUNTER_BYTES`, `COUNTER_MODULUS`). -/
abbrev U64 := BitVec 64

/-- A byte sequence of exactly `n` bytes; no value of another length can be built. -/
structure BytesN (n : Nat) where
  toList : Bytes
  length_eq : toList.length = n
  deriving DecidableEq, Repr

/-- 16 bytes, "the atomic unit both engines operate on"; an IV is a block too (R6 `BLOCK_BYTES`, `IV_BYTES`). -/
abbrev Block := BytesN 16

/-- A key, exactly 16 bytes (R6 `KEY_BYTES`). -/
abbrev Key := BytesN 16

/-- Exactly 8 bytes: the nonce, and the counter as bytes (R6 `NONCE_BYTES`, `COUNTER_BYTES`). -/
abbrev Half := BytesN 8

/-- The two engines of CORE (R2). -/
inductive Engine where
  | cbc
  | ctr
  deriving DecidableEq, Repr

/-- The five operations of the caller surface, the same for both engines (R62). -/
inductive Func where
  | construct
  | setKey
  | setIv
  | encrypt
  | decrypt
  deriving DecidableEq, Repr

/-- The two command formats: K1 is `op`, `A`; K2 is `op`, `A`, `B` (R60). -/
inductive Format where
  | k1
  | k2
  deriving DecidableEq, Repr

/-- A command as the host sends it: the command byte and the operand bytes, each operand with its own length (R60).
A K1 command brings no `B`: its `b` is not read, and `encode` leaves it empty (DESIGN CHOICE, log 7). -/
structure Command where
  op : Byte
  a : Bytes
  b : Bytes
  deriving DecidableEq, Repr

end Sys2Proof
end

