-- ==== Sys2Proof/Syntax.lean ====
section
/-! DEFINITION. The ten commands of CORE, one constructor for each row of spec/opcode_table.json (R63). -/

namespace Sys2Proof

/-- A decoded command with its captured operands (R63, R64). An operand is a byte sequence of any length: the length
checks belong to the commands (R107, R124), not to the decoder. -/
inductive Instr where
  | cbcConstruct (key iv : Bytes)
  | cbcSetKey (key : Bytes)
  | cbcSetIv (iv : Bytes)
  | cbcEncrypt (data : Bytes)
  | cbcDecrypt (data : Bytes)
  | ctrConstruct (key iv : Bytes)
  | ctrSetKey (key : Bytes)
  | ctrSetIv (iv : Bytes)
  | ctrEncrypt (data : Bytes)
  | ctrDecrypt (data : Bytes)
  deriving DecidableEq, Repr

/-- The engine a command is addressed to (R61 `ENG`). -/
def Instr.engine : Instr → Engine
  | .cbcConstruct _ _ | .cbcSetKey _ | .cbcSetIv _ | .cbcEncrypt _ | .cbcDecrypt _ => .cbc
  | .ctrConstruct _ _ | .ctrSetKey _ | .ctrSetIv _ | .ctrEncrypt _ | .ctrDecrypt _ => .ctr

/-- The operation a command asks for (R62 `FUNC`). -/
def Instr.func : Instr → Func
  | .cbcConstruct _ _ | .ctrConstruct _ _ => .construct
  | .cbcSetKey _ | .ctrSetKey _ => .setKey
  | .cbcSetIv _ | .ctrSetIv _ => .setIv
  | .cbcEncrypt _ | .ctrEncrypt _ => .encrypt
  | .cbcDecrypt _ | .ctrDecrypt _ => .decrypt

/-- The operand `A` (R62). -/
def Instr.operandA : Instr → Bytes
  | .cbcConstruct a _ | .cbcSetKey a | .cbcSetIv a | .cbcEncrypt a | .cbcDecrypt a => a
  | .ctrConstruct a _ | .ctrSetKey a | .ctrSetIv a | .ctrEncrypt a | .ctrDecrypt a => a

/-- The operand `B` of a K2 command; a K1 command has none (R62). -/
def Instr.operandB : Instr → Bytes
  | .cbcConstruct _ b | .ctrConstruct _ b => b
  | .cbcSetKey _ | .cbcSetIv _ | .cbcEncrypt _ | .cbcDecrypt _ => []
  | .ctrSetKey _ | .ctrSetIv _ | .ctrEncrypt _ | .ctrDecrypt _ => []

end Sys2Proof
end

