-- ==== Sys2Proof/Decode.lean ====
section
/-! DEFINITION. The decoder of the command byte, total on every byte, the encoder written from the same tables, and the
opcode map as a table (spec/30_encoding.md R60 to R66). -/

namespace Sys2Proof

/-! ### The fields of the command byte (R61) -/

/-- `op[7:5]`, reserved, must be `000`. -/
def opRsv (op : Byte) : BitVec 3 := op.extractLsb' 5 3

/-- `op[4]`, engine select. -/
def opEng (op : Byte) : BitVec 1 := op.extractLsb' 4 1

/-- `op[3:0]`, the operation. -/
def opFunc (op : Byte) : BitVec 4 := op.extractLsb' 0 4

/-- 0 is the CBC engine, 1 is the CTR engine (R61). -/
def decodeEng (b : BitVec 1) : Engine := if b = 0#1 then .cbc else .ctr

/-- The values of `FUNC` (R62); `0x5` to `0xF` are reserved. -/
def decodeFunc (f : BitVec 4) : Option Func :=
  match f.toNat with
  | 0 => some .construct
  | 1 => some .setKey
  | 2 => some .setIv
  | 3 => some .encrypt
  | 4 => some .decrypt
  | _ => none

/-- Why a command byte is rejected (R66). -/
inductive Reserved where
  /-- `RSV != 000`. -/
  | rsvBits (op : Byte)
  /-- `FUNC` in `0x5..0xF`. -/
  | funcCode (op : Byte)
  deriving DecidableEq, Repr

/-- Decode of the command byte: "every one of the 256 byte values either is one of the ten commands of rule R63 or is
reserved" (R66). -/
def decodeOp (op : Byte) : Except Reserved (Engine × Func) :=
  if opRsv op ≠ 0#3 then .error (.rsvBits op)
  else match decodeFunc (opFunc op) with
    | some f => .ok (decodeEng (opEng op), f)
    | none => .error (.funcCode op)

/-- The command of an engine and an operation, its operands taken whole and in order (R62, R64). A `B` beside a K1 byte is not read
(DESIGN CHOICE, log 7). -/
def assemble : Engine → Func → Bytes → Bytes → Instr
  | .cbc, .construct, a, b => .cbcConstruct a b
  | .cbc, .setKey, a, _ => .cbcSetKey a
  | .cbc, .setIv, a, _ => .cbcSetIv a
  | .cbc, .encrypt, a, _ => .cbcEncrypt a
  | .cbc, .decrypt, a, _ => .cbcDecrypt a
  | .ctr, .construct, a, b => .ctrConstruct a b
  | .ctr, .setKey, a, _ => .ctrSetKey a
  | .ctr, .setIv, a, _ => .ctrSetIv a
  | .ctr, .encrypt, a, _ => .ctrEncrypt a
  | .ctr, .decrypt, a, _ => .ctrDecrypt a

/-- Decode of a command record. The operands are data, not part of the pattern a decoder matches (R60); those of a
reserved command are ignored (R66). -/
def decode (c : Command) : Except Reserved Instr :=
  match decodeOp c.op with
  | .ok (e, f) => .ok (assemble e f c.a c.b)
  | .error r => .error r

/-! ### The encoder, from R61 and R62 -/

/-- The `ENG` bit. -/
def engBit : Engine → BitVec 1
  | .cbc => 0#1
  | .ctr => 1#1

/-- The `FUNC` code. -/
def funcCode : Func → BitVec 4
  | .construct => 0#4
  | .setKey => 1#4
  | .setIv => 2#4
  | .encrypt => 3#4
  | .decrypt => 4#4

/-- The command byte `000 ENG FUNC`. -/
def opByte (e : Engine) (f : Func) : Byte := 0#3 ++ engBit e ++ funcCode f

/-- The format is selected by `op` alone (R60, R62). -/
def Func.format : Func → Format
  | .construct => .k2
  | .setKey | .setIv | .encrypt | .decrypt => .k1

/-- The record of a command: `op`, `A`, and `B` in format K2. -/
def encode (i : Instr) : Command := ⟨opByte i.engine i.func, i.operandA, i.operandB⟩

/-- A record in the form the host sends: the record of a K1 command brings no `B` (R60). A reserved byte is in this form with any
`B` too, as the model's choice (DESIGN CHOICE, log 7): R60 and R62 put the reserved bytes in K1, and a program of
95_test_vectors.md section 9 sends one with a `B`. -/
def Command.canonical (c : Command) : Bool :=
  match decodeOp c.op with
  | .ok (_, f) => f.format == .k2 || c.b == []
  | .error _ => true

/-! ### The opcode map as a table (R63) -/

/-- One row: "a byte `b` selects the row when `(b AND mask) = match`". -/
structure OpRow where
  mnemonic : String
  mask : Byte
  pat : Byte
  engine : Engine
  func : Func
  deriving DecidableEq, Repr

/-- The ten rows of R63, in the order it lists them. -/
def opcodeTable : List OpRow :=
  [ ⟨"CBC.CONSTRUCT", 0xFF, 0x00, .cbc, .construct⟩,
    ⟨"CBC.SET_KEY", 0xFF, 0x01, .cbc, .setKey⟩,
    ⟨"CBC.SET_IV", 0xFF, 0x02, .cbc, .setIv⟩,
    ⟨"CBC.ENCRYPT", 0xFF, 0x03, .cbc, .encrypt⟩,
    ⟨"CBC.DECRYPT", 0xFF, 0x04, .cbc, .decrypt⟩,
    ⟨"CTR.CONSTRUCT", 0xFF, 0x10, .ctr, .construct⟩,
    ⟨"CTR.SET_KEY", 0xFF, 0x11, .ctr, .setKey⟩,
    ⟨"CTR.SET_IV", 0xFF, 0x12, .ctr, .setIv⟩,
    ⟨"CTR.ENCRYPT", 0xFF, 0x13, .ctr, .encrypt⟩,
    ⟨"CTR.DECRYPT", 0xFF, 0x14, .ctr, .decrypt⟩ ]

/-- A byte selects a row (R63). -/
def OpRow.selects (r : OpRow) (op : Byte) : Bool := (op &&& r.mask) == r.pat

/-! ### The host's numbering of opcode-table words -/

/-- The command whose bits are `w`: the command byte is bits 7 to 0, the low `nbits` of them, and the operands, which the
table gives no bits, are empty (log 7). -/
def tableCommand (nbits w : Nat) : Command := ⟨BitVec.ofNat 8 (w % 2 ^ nbits), [], []⟩

/-- The instruction the decoder reads from the word `w` of an opcode-table row of `nbits` bits. -/
def decodeTableWord (nbits w : Nat) : Option Instr :=
  match decode (tableCommand nbits w) with
  | .ok i => some i
  | .error _ => none

end Sys2Proof
end

