-- ==== Sys2Proof/Config.lean ====
section
/-! DEFINITION. What is fixed when the hardware is built, and the one thing CORE depends on and does not contain, the
block-cipher primitive (spec/00_scope.md R7; spec/44_primitive_interface.md R180 to R188). -/

namespace Sys2Proof

/-- A primitive instance: the permutation of the 16-byte blocks that a key gives, together with its inverse
("for each key `k` the map `b -> E(k, b)` is a permutation of the `2^128` blocks", R181; `decrypt_block` is "the exact
mathematical inverse", R182). -/
abbrev PrimInstance := Equiv.Perm Block

/-- `encrypt_block(instance, block)`, total and by value (R181, R185). -/
def encryptBlock (inst : PrimInstance) (b : Block) : Block := inst b

/-- `decrypt_block(instance, block)`, total and by value (R182, R185). -/
def decryptBlock (inst : PrimInstance) (b : Block) : Block := inst.symm b

/-- The three arguments a model of this spec has (92_eei_decisions.md, "Open parameters, in one place"): the primitive,
here as `init` (R180), `PAD_VALIDATE` and `BUF_CAP` (`none` is unbounded). -/
structure Params where
  init : Key → PrimInstance
  padValidate : Bool
  bufCap : Option Nat

/-- `E(k, b)` stands for `encrypt_block(init(k), b)` (R180). -/
def Params.E (P : Params) (k : Key) (b : Block) : Block := encryptBlock (P.init k) b

/-- `D(k, b)` stands for `decrypt_block(init(k), b)` (R180). -/
def Params.D (P : Params) (k : Key) (b : Block) : Block := decryptBlock (P.init k) b

namespace Config

/-- The primitive of this hardware: a black box, "a model must not fix `E`" (R183, R186). It has no body, so nothing in
Lean can evaluate it and every claim holds for every primitive (log 1). -/
opaque primitive : Key → PrimInstance

/-- The build this model is of: `PAD_VALIDATE = false`, `BUF_CAP` unbounded (R7; 92_eei_decisions.md D9, D12; log 12). -/
def hardware : Params where
  init := primitive
  padValidate := false
  bufCap := none

end Config
end Sys2Proof
end

