-- ==== Sys2Proof/Machine/State.lean ====
section
/-! DEFINITION. The state of CORE, the responses it gives, the events the host sends and the requests the primitive
receives, all as plain data, and the state after reset (spec/10_state.md; spec/30_encoding.md R65; spec/70_reset_and_hazards.md
R220). -/

namespace Sys2Proof.Machine

/-- A constructed engine: "always in exactly one (key, IV) configuration" (R20). `KEY[e]` (R21) and `IV[e]` (R22) are of
exactly 16 bytes by their types. The primitive instance is `init key`, a function of the key, and is not stored (R24). -/
structure EngineInstance where
  key : Key
  iv : Block
  deriving DecidableEq, Repr

/-- The outcomes a response can report (R191). Status values `0x07` to `0xFF` are never produced. -/
inductive Status where
  | ok
  | invalidKeyIvLength
  | malformedCiphertextLength
  | padLengthError
  | padInconsistentError
  | notConstructed
  | illegalCommand
  deriving DecidableEq, Repr

/-- The answer to one command: status, info byte, output bytes (R65). -/
structure Response where
  status : Status
  info : Byte
  out : Bytes
  deriving DecidableEq, Repr

/-- What the host can do to CORE: issue a command, or reset it; `reset (some c)` is a reset while the operation of `c` is
in progress, `reset none` a reset between commands (R221). -/
inductive HostEvent where
  | command (c : Command)
  | reset (inProgress : Option Command)
  deriving DecidableEq, Repr

/-- A request CORE sends to the primitive: the direction, the instance (by its key) and the block (R180, R188). -/
inductive PrimRequest where
  | init (key : Key)
  | encryptBlock (key : Key) (block : Block)
  | decryptBlock (key : Key) (block : Block)
  deriving DecidableEq, Repr

/-- The state. `cbc` and `ctr` are CORE's own: an engine is absent until its `CONSTRUCT` succeeds (R25, R34; log 3). `ci` is
the spec's command index (R29). The last three fields are the model's record of the agents outside CORE: what the host has
still to send (log 2), what it has been answered (log 4), what the primitive has been asked (log 5). No command reads
them. -/
structure State where
  cbc : Option EngineInstance
  ctr : Option EngineInstance
  ci : Nat
  hostInput : List HostEvent
  responses : List Response
  requests : List PrimRequest
  deriving DecidableEq, Repr

/-- The state after reset (R34, R220): neither engine constructed, no key, no IV, `ci = 0`, no response pending; nothing
has yet come from the host (DESIGN CHOICE, logs 2, 4, 5). -/
def State.reset : State where
  cbc := none
  ctr := none
  ci := 0
  hostInput := []
  responses := []
  requests := []

/-- The ways CORE can stop: none. Every error of the spec is a response after which the machine goes on (R190, R199), and
"no behaviour in CORE is treated as `stuck`" (93_implementation_defined.md part 1; log 13). Safe: there is nothing to
raise. -/
inductive Fault where
  deriving DecidableEq, Repr

/-- The commands the model gives no meaning. -/
inductive Refusal where
  /-- Raised by an arm of `exec` whose instruction has no meaning yet; safe, it stops. No arm raises it. -/
  | notModelled (mnemonic : String)
  /-- Raised by a command with an operand of `length` bytes on a BUILD whose `BUF_CAP` is `cap`: "it is not a command of
  this machine and the model gives it no meaning" (R52). Safe, it stops. This hardware is unbounded and never raises it. -/
  | overBufCap (cap length : Nat)
  deriving DecidableEq, Repr

/-- The result of a command or of a step. -/
abbrev Result := Host.Outcome State Fault Refusal

end Sys2Proof.Machine
end

