-- ==== Sys2Proof/Machine/Flags.lean ====
section
/-! DEFINITION. The outcome codes. CORE has no flags (spec/10_state.md R30): the outcome of a command is the status byte and
the info byte of its response. This file gives both, for `OK` and for each cause of an error (spec/60_exceptions.md R191 to
R197). -/

namespace Sys2Proof.Machine

/-- The status byte (R191). -/
def Status.code : Status → Byte
  | .ok => 0x00
  | .invalidKeyIvLength => 0x01
  | .malformedCiphertextLength => 0x02
  | .padLengthError => 0x03
  | .padInconsistentError => 0x04
  | .notConstructed => 0x05
  | .illegalCommand => 0x06

/-- The causes of an error, one for each row of the info column of R191. -/
inductive CommandError where
  /-- A key operand that is not 16 bytes (R192). -/
  | badKeyLength
  /-- An IV operand that is not 16 bytes (R192). -/
  | badIvLength
  /-- A ciphertext of `length` bytes, not a positive multiple of 16 (R193). -/
  | badCiphertextLength (length : Nat)
  /-- `P = 0` (R194). -/
  | padZero
  /-- `P > |PT|` (R194). -/
  | padTooLong
  /-- `|PT| = 0`; cannot occur inside `CBC.DECRYPT` (R126, R194). -/
  | padEmptyBuffer
  /-- `P > 16`, with `PAD_VALIDATE = true` only (R195). -/
  | padOverBlock
  /-- A trailing byte differs from `P`, with `PAD_VALIDATE = true` only (R195). -/
  | padMismatch
  /-- Engine not constructed; `op` is the command byte (R196). -/
  | notConstructed (op : Byte)
  /-- Reserved command byte (R197). -/
  | illegalCommand (op : Byte)
  deriving DecidableEq, Repr

/-- The status of an error (R191). -/
def CommandError.status : CommandError → Status
  | .badKeyLength | .badIvLength => .invalidKeyIvLength
  | .badCiphertextLength _ => .malformedCiphertextLength
  | .padZero | .padTooLong | .padEmptyBuffer => .padLengthError
  | .padOverBlock | .padMismatch => .padInconsistentError
  | .notConstructed _ => .notConstructed
  | .illegalCommand _ => .illegalCommand

/-- The info byte of an error (R191 to R197; 92_eei_decisions.md D25). -/
def CommandError.info : CommandError → Byte
  | .badKeyLength => 0x00
  | .badIvLength => 0x01
  | .badCiphertextLength n => BitVec.ofNat 8 (n % 16)
  | .padZero => 0x00
  | .padTooLong => 0x01
  | .padEmptyBuffer => 0x02
  | .padOverBlock => 0x00
  | .padMismatch => 0x01
  | .notConstructed op => op
  | .illegalCommand op => op

/-- The response of a command that did not fail: status `OK`, info 0 and its output (R65). -/
def okResponse (out : Bytes) : Response := ⟨.ok, 0x00, out⟩

/-- The response of a command that failed: the error's status and info byte, an empty output (R199). -/
def errorResponse (e : CommandError) : Response := ⟨e.status, e.info, []⟩

end Sys2Proof.Machine
end

