-- ==== Sys2Proof/Machine/Operands.lean ====
section
/-! DEFINITION. Operands and the shared utilities: reading buffers, taking a key or an IV, chunking, the byte-wise XOR and
the big-endian counter arithmetic (spec/20_memory.md; spec/40_shared_utilities.md). All are total pure functions without
state (R90). -/

namespace Sys2Proof.Machine

/-! ### Buffers (R40 to R48) -/

/-- `MemRead(buf, i, n)`: the bytes `buf[i..i+n-1]` (00_scope.md section 6). -/
def memRead (buf : Bytes) (i n : Nat) : Bytes := (buf.drop i).take n

/-- `MemWrite(OUT, i, n, v)`: the bytes `v` at index `i` of `OUT`, `n = |v|` (00_scope.md section 6). Every operation writes
`OUT` front to back with no gap, so `i` is always `|OUT|` (R48). -/
def memWrite (out : Bytes) (i : Nat) (v : Bytes) : Bytes := out.take i ++ v ++ out.drop (i + v.length)

/-- `OUT <- OUT ‖ v`, "which is `MemWrite(OUT, |OUT|, |v|, v)`" (00_scope.md section 6). -/
def appendOut (out v : Bytes) : Bytes := memWrite out out.length v

/-- Byte `j` of a sequence of `n` bytes. -/
def byteAt {n : Nat} (v : BytesN n) (j : Fin n) : Byte := 
  v.toList[j.val]'(by rw [v.length_eq]; exact j.isLt)

/-- A key or IV operand: its 16 bytes when its length is exactly 16, and nothing otherwise; no byte is dropped, repeated,
reordered or extended (R46, R64). -/
def asBlock (a : Bytes) : Option Block := if h : a.length = 16 then some ⟨a, h⟩ else none

/-! ### Chunking (R82, R83, R121) -/

/-- `nblocks_exact(s)` of `n` bytes (R82). -/
def nblocksExact (n : Nat) : Nat := n / 16

/-- `nblocks_ceil(s)` of `n` bytes (R82). -/
def nblocksCeil (n : Nat) : Nat := (n + 15) / 16

/-- `block(s, k)`, the bytes with indices `16k` to `min(16k + 15, n - 1)`, read with `MemRead(s, 16k, min(16, n - 16k))`
(R83). -/
def block (s : Bytes) (k : Nat) : Bytes := memRead s (16 * k) (min 16 (s.length - 16 * k))

/-- `chunks(s)`, the `nblocks_exact` blocks of 16 bytes, "block 0 first" (R121). Each of them has 16 bytes
(`chunks_length`), so none is dropped. -/
def chunks (s : Bytes) : List Block :=
  (List.range (nblocksExact s.length)).filterMap fun k => asBlock (block s k)

/-- The blocks of a list one after another: `c_0 ‖ c_1 ‖ ...` (R123). -/
def concatBlocks (bs : List Block) : Bytes := bs.flatMap BytesN.toList

/-! ### byte_xor_parallel (R80, R81) -/

/-- `xor16(a, b)`: 16 independent lanes (R80). -/
def xor16 (a b : Block) : Block :=
  ⟨List.zipWith (· ^^^ ·) a.toList b.toList, by simp [a.length_eq, b.length_eq]⟩

/-- `xorn(a, b)`: the bytes of `a` against the first bytes of `b`; `b[n..15]` are not used (R81). -/
def xorn (a : Bytes) (b : Block) : Bytes := List.zipWith (· ^^^ ·) a b.toList

/-- A short block "conceptually zero-padded to 16 bytes for processing only" (R152): `a ‖ [0x00]^(16-n)`. No command uses
it; R81 and R154 compare `xorn` with it. -/
def zeroPad (a : Bytes) : Block :=
  ⟨(a ++ List.replicate (16 - a.length) 0x00).take 16, by simp; omega⟩

/-! ### big_endian_counter_arithmetic (R84 to R88) -/

/-- Bytes read as one unsigned number, the first the most significant (R43). -/
def beNat (bs : Bytes) : Nat := bs.foldl (fun acc b => acc * 256 + b.toNat) 0

/-- `be64_decode(h)` (R84). -/
def be64Decode (h : Half) : U64 := BitVec.ofNat 64 (beNat h.toList)

/-- `be64_encode(c)[j] = c[63-8j : 56-8j]` (R85). -/
def be64Encode (c : U64) : Half :=
  ⟨(List.range 8).map fun j => c.extractLsb' (56 - 8 * j) 8, by simp⟩

/-- `add64(c, i) = (c + i) mod 2^64` (R87). -/
def add64 (c : U64) (i : Nat) : U64 := BitVec.ofNat 64 (c.toNat + i)

/-- `counter_block(nonce, c) = nonce ‖ be64_encode(c)` (R88). -/
def counterBlock (nonce : Half) (c : U64) : Block :=
  ⟨nonce.toList ++ (be64Encode c).toList, by simp [nonce.length_eq, (be64Encode c).length_eq]⟩

/-- `split_iv(v)`: `NONCE = v[0..7]`, `CTR0 = be64_decode(v[8..15])` (R23, R150). -/
def splitIv (v : Block) : Half × U64 :=
  (⟨memRead v.toList 0 8, by simp [memRead, v.length_eq]⟩,
   be64Decode ⟨memRead v.toList 8 8, by simp [memRead, v.length_eq]⟩)

/-! ### Packing (R45) -/

/-- A block as one 128-bit value, byte `j` at bits `127 - 8j` to `120 - 8j` (R45; 92_eei_decisions.md D13). The machine keeps
blocks as bytes, "the recommended form", and packs nothing. -/
def pack128 (b : Block) : BitVec 128 := BitVec.ofNat 128 (beNat b.toList)

/-- The block whose packing is `x` (R45). -/
def unpack128 (x : BitVec 128) : Block :=
  ⟨(List.range 16).map fun j => x.extractLsb' (120 - 8 * j) 8, by simp⟩

end Sys2Proof.Machine
end

