-- ==== Sys2Proof/WellFormed.lean ====
section
/-! DEFINITION. When a command is a command of the machine: its operands lie within `BUF_CAP` (spec/20_memory.md R52).
With `BUF_CAP` unbounded, as on this hardware, every command is one. -/

namespace Sys2Proof

/-- A length is within the capacity; `none` is no bound (R52, R7). -/
def fitsCap (cap : Option Nat) (n : Nat) : Bool :=
  match cap with
  | none => true
  | some c => n ≤ c

/-- The output of `CBC.ENCRYPT`, `len + p` bytes, is not longer than `BUF_CAP + 16` (R52, R120). -/
def fitsPadded (cap : Option Nat) (n : Nat) : Bool :=
  match cap with
  | none => true
  | some c => n + (16 - n % 16) ≤ c + 16

/-- "A command whose operand is longer than `BUF_CAP`, or a `CBC.ENCRYPT` whose output `len + p` would be longer than
`BUF_CAP + 16`, is refused by the model: it is not a command of this machine" (R52). -/
def Instr.wellFormed (cap : Option Nat) : Instr → Bool
  | .cbcConstruct a b | .ctrConstruct a b => fitsCap cap a.length && fitsCap cap b.length
  | .cbcEncrypt a => fitsCap cap a.length && fitsPadded cap a.length
  | .cbcSetKey a | .cbcSetIv a | .cbcDecrypt a => fitsCap cap a.length
  | .ctrSetKey a | .ctrSetIv a | .ctrEncrypt a | .ctrDecrypt a => fitsCap cap a.length

end Sys2Proof
end

