-- ==== Sys2Proof/Machine/Ops.lean ====
section
/-! DEFINITION. The named operations over the state: reading and writing an engine, asking the primitive, delivering a
response, raising an error (the one shared operation behind every error), the checks that several commands share, reset, and
the acceptance of the host's next event (spec/10_state.md, spec/60_exceptions.md R198 to R201, spec/70_reset_and_hazards.md
R221). -/

namespace Sys2Proof.Machine

/-! ### The engines -/

/-- The configuration of an engine, if it is constructed. -/
def State.engine (s : State) : Engine → Option EngineInstance
  | .cbc => s.cbc
  | .ctr => s.ctr

/-- `CONSTRUCTED[e]` (R25). -/
def State.constructed (s : State) (e : Engine) : Bool := (s.engine e).isSome

/-- `KEY[e] <- k`, `IV[e] <- v`, `CONSTRUCTED[e] <- 1`: the one write to an engine's registers, whole values only (R21,
R22). -/
def State.setEngine (s : State) (e : Engine) (inst : EngineInstance) : State :=
  match e with
  | .cbc => { s with cbc := some inst }
  | .ctr => { s with ctr := some inst }

/-! ### Responses and errors -/

/-- The response is delivered and the command index advances by one, for `OK` and for an error alike (R29, R199). -/
def deliver (r : Response) (s : State) : State :=
  { s with responses := s.responses ++ [r], ci := s.ci + 1 }

/-- `respond OK(OUT)` (00_scope.md section 6, R65). -/
def respondOk (out : Bytes) (s : State) : State := deliver (okResponse out) s

/-- `raise <Error>(info)`: the command ends with the error's status and info byte and an empty output, and `KEY`, `IV`,
`CONSTRUCTED` of both engines are what they were (R199, R200). Nothing is saved, masked or switched, there is no handler,
and there is no return operation: "an error is not sticky" (R201). -/
def raise (e : CommandError) (s : State) : State := deliver (errorResponse e) s

/-- The requests of an operation reach the primitive, in order (R188). -/
def sendRequests (rs : List PrimRequest) (s : State) : State :=
  { s with requests := s.requests ++ rs }

/-! ### Checks that several commands share -/

/-- A build with a finite `BUF_CAP` refuses a command that `ok` says is over it; `length` is reported (R52; log 8). -/
def withinCap (P : Params) (ok : Bool) (length : Nat) (run : Result) : Result :=
  match P.bufCap with
  | none => run
  | some cap => if ok then run else .refused (.overBufCap cap length)

/-- The command runs on the engine's configuration, or raises `NotConstructed` with the command byte as info while
`CONSTRUCTED[e] = 0` (R25, R196). -/
def withInstance (e : Engine) (f : Func) (s : State) (run : EngineInstance → Result) : Result :=
  match s.engine e with
  | none => .next (raise (.notConstructed (opByte e f)) s)
  | some inst => run inst

/-! ### Reset and the host's events -/

/-- Reset (R220, R221): both engines go back to not constructed, `ci` to 0, and an operation in progress is abandoned with no
response and no output. What the host has still to send, has been answered, and what the primitive was asked before lie
outside CORE and stay (log 11). -/
def applyReset (s : State) : State := { s with cbc := none, ctr := none, ci := 0 }

/-- A command captured at acceptance is decoded and executed; a reserved command byte raises `IllegalCommand`, its operands
ignored (R53, R66, R197; log 9). -/
def runCommand (ex : Instr → State → Result) (c : Command) (s : State) : Result :=
  match decode c with
  | .ok i => ex i s
  | .error _ => .next (raise (.illegalCommand c.op) s)

/-- The host's next event is taken from its sequence: a command is accepted and performed to its response (R53, R54, R210), a
reset is performed, and with none pending CORE waits (R222; log 2). -/
def acceptNext (ex : Instr → State → Result) (s : State) : Result :=
  match s.hostInput with
  | [] => .next s
  | .command c :: rest => runCommand ex c { s with hostInput := rest }
  | .reset _ :: rest => .next (applyReset { s with hostInput := rest })

end Sys2Proof.Machine
end

