-- ==== Sys2Proof/Machine/Cbc.lean ====
section
/-! DEFINITION. The CBC engine (spec/42_cbc_engine.md): its units pkcs_padder, cbc_xor_chain and pkcs_unpadder as pure functions
(plaintext_chunker is `chunks`), and the two data commands as the register machine of R123 and R127. -/

namespace Sys2Proof.Machine

/-! ### The units -/

/-- The pad length `p = 16 - (n mod 16)`, in 1..16 (R120). -/
def padLength (n : Nat) : Nat := 16 - n % 16

/-- `pad(m) = m ‖ [p]^p` (R120). -/
def pad (m : Bytes) : Bytes :=
  m ++ List.replicate (padLength m.length) (BitVec.ofNat 8 (padLength m.length))

/-- `cbc_chain_enc(k, v, bs)`: `c_i = E(k, xor16(b_i, c_{i-1}))`, `c_{-1} = v` (R122); `enc` is `E(k, ·)`. -/
def cbcChainEnc (enc : Block → Block) : Block → List Block → List Block
  | _, [] => []
  | v, b :: bs => enc (xor16 b v) :: cbcChainEnc enc (enc (xor16 b v)) bs

/-- The blocks `cbc_chain_enc` hands to `E`, in index order: `xor16(b_i, c_{i-1})` (R122, R132). -/
def cbcChainInputs (enc : Block → Block) : Block → List Block → List Block
  | _, [] => []
  | v, b :: bs => xor16 b v :: cbcChainInputs enc (enc (xor16 b v)) bs

/-- `cbc_chain_dec(k, v, cs)`: `m_i = xor16(D(k, c_i), c_{i-1})`, `c_{-1} = v` (R125); `dec` is `D(k, ·)`. -/
def cbcChainDec (dec : Block → Block) : Block → List Block → List Block
  | _, [] => []
  | v, c :: cs => xor16 (dec c) v :: cbcChainDec dec c cs

/-- `unpad(t)` (R126), with the further check of R129 when `validate` is set. The pad byte is trusted when it is not (R128). -/
def unpad (validate : Bool) (t : Bytes) : Except CommandError Bytes :=
  match t.getLast? with
  | none => .error .padEmptyBuffer
  | some last =>
    let p := last.toNat
    if p = 0 then .error .padZero
    else if t.length < p then .error .padTooLong
    else if validate && decide (16 < p) then .error .padOverBlock
    else if validate && (t.drop (t.length - p)).any (fun x => x != last) then .error .padMismatch
    else .ok (t.take (t.length - p))

/-! ### The commands -/

/-- The working registers of a CBC operation: `CV`, and `OUT` (`PT` when decrypting), with the requests made so far (R27; logs 5, 14). -/
structure CbcRegs where
  cv : Block
  out : Bytes
  reqs : List PrimRequest
  deriving DecidableEq, Repr

/-- One turn of the loop of R123: `CV <- E(KEY[CBC], xor16(block, CV))`; `OUT <- OUT ‖ CV`. -/
def cbcEncBlock (P : Params) (k : Key) (r : CbcRegs) (b : Block) : CbcRegs :=
  let x := xor16 b r.cv
  let cv := P.E k x
  { cv := cv, out := appendOut r.out cv.toList, reqs := r.reqs ++ [.encryptBlock k x] }

/-- One turn of the loop of R127: `SAVED <- block`; `PT <- PT ‖ xor16(D(KEY[CBC], SAVED), CV)`; `CV <- SAVED`. -/
def cbcDecBlock (P : Params) (k : Key) (r : CbcRegs) (b : Block) : CbcRegs :=
  let saved := b
  let m := xor16 (P.D k saved) r.cv
  { cv := saved, out := appendOut r.out m.toList, reqs := r.reqs ++ [.decryptBlock k saved] }

/-- `CBC.ENCRYPT data=A` (R123). -/
def cbcEncrypt (P : Params) (a : Bytes) (s : State) : Result :=
  withinCap P (fitsCap P.bufCap a.length && fitsPadded P.bufCap a.length) a.length <|
    withInstance .cbc .encrypt s fun inst =>
      let r := (chunks (pad a)).foldl (cbcEncBlock P inst.key) ⟨inst.iv, [], []⟩
      .next (respondOk r.out (sendRequests r.reqs s))

/-- A ciphertext length `CBC.DECRYPT` accepts: a positive multiple of 16 (R124). -/
def isCiphertextLength (n : Nat) : Bool := decide (0 < n) && decide (n % 16 = 0)

/-- `CBC.DECRYPT data=A` (R127): the length check comes before any request to the primitive, and all blocks are decrypted
before the padding is looked at. -/
def cbcDecrypt (P : Params) (a : Bytes) (s : State) : Result :=
  withinCap P (fitsCap P.bufCap a.length) a.length <|
    withInstance .cbc .decrypt s fun inst =>
      if isCiphertextLength a.length then
        let r := (chunks a).foldl (cbcDecBlock P inst.key) ⟨inst.iv, [], []⟩
        let s' := sendRequests r.reqs s
        match unpad P.padValidate r.out with
        | .error e => .next (raise e s')
        | .ok out => .next (respondOk out s')
      else .next (raise (.badCiphertextLength a.length) s)

/-- `CBC.ENCRYPT` on this hardware (R123). -/
def execCbcEncrypt (data : Bytes) (s : State) : Result := cbcEncrypt Config.hardware data s

/-- `CBC.DECRYPT` on this hardware (R127, R128). -/
def execCbcDecrypt (data : Bytes) (s : State) : Result := cbcDecrypt Config.hardware data s

end Sys2Proof.Machine
end

