-- ==== Sys2Proof/Machine/ConfigCommands.lean ====
section
/-! DEFINITION. The six commands that load the key and the IV of an engine (spec/41_config_commands.md R100 to R110), first
for any build and any engine, then the meaning of each on this hardware. Checks come before any write (R107). -/

namespace Sys2Proof.Machine

/-- `e.CONSTRUCT key=A, iv=B` (R100, R101): the key is checked first (R198), a bad operand leaves the engine as it was, and an
engine already constructed is replaced whole (R110). The primitive instance is made from the key (R180). -/
def construct (P : Params) (e : Engine) (a b : Bytes) (s : State) : Result :=
  withinCap P (fitsCap P.bufCap a.length && fitsCap P.bufCap b.length) (max a.length b.length) <|
    match asBlock a with
    | none => .next (raise .badKeyLength s)
    | some k =>
      match asBlock b with
      | none => .next (raise .badIvLength s)
      | some v => .next (respondOk [] (sendRequests [.init k] (s.setEngine e ⟨k, v⟩)))

/-- `e.SET_KEY key=A` (R102, R103): the IV stays (R109), the instance is made again from the new key (R187). -/
def setKey (P : Params) (e : Engine) (a : Bytes) (s : State) : Result :=
  withinCap P (fitsCap P.bufCap a.length) a.length <|
    withInstance e .setKey s fun inst =>
      match asBlock a with
      | none => .next (raise .badKeyLength s)
      | some k => .next (respondOk [] (sendRequests [.init k] (s.setEngine e { inst with key := k })))

/-- `e.SET_IV iv=A` (R104, R105): the key and the primitive instance stay (R109). -/
def setIv (P : Params) (e : Engine) (a : Bytes) (s : State) : Result :=
  withinCap P (fitsCap P.bufCap a.length) a.length <|
    withInstance e .setIv s fun inst =>
      match asBlock a with
      | none => .next (raise .badIvLength s)
      | some v => .next (respondOk [] (s.setEngine e { inst with iv := v }))

/-- `CBC.CONSTRUCT` (R100). -/
def execCbcConstruct (key iv : Bytes) (s : State) : Result := construct Config.hardware .cbc key iv s

/-- `CTR.CONSTRUCT` (R101). -/
def execCtrConstruct (key iv : Bytes) (s : State) : Result := construct Config.hardware .ctr key iv s

/-- `CBC.SET_KEY` (R102). -/
def execCbcSetKey (key : Bytes) (s : State) : Result := setKey Config.hardware .cbc key s

/-- `CTR.SET_KEY` (R103). -/
def execCtrSetKey (key : Bytes) (s : State) : Result := setKey Config.hardware .ctr key s

/-- `CBC.SET_IV` (R104). -/
def execCbcSetIv (iv : Bytes) (s : State) : Result := setIv Config.hardware .cbc iv s

/-- `CTR.SET_IV` (R105). -/
def execCtrSetIv (iv : Bytes) (s : State) : Result := setIv Config.hardware .ctr iv s

end Sys2Proof.Machine
end

