-- ==== Sys2Proof/Machine/Ctr.lean ====
section
/-! DEFINITION. The CTR engine (spec/43_ctr_engine.md): the two data commands as the register machine of R155 and R156, and
`ctr_transform`, their closed form (R157). -/

namespace Sys2Proof.Machine

/-- The working registers of a CTR operation that outlive one turn of its loop: `OUT`, with the requests made so far (R27; logs 5, 14). -/
structure CtrRegs where
  out : Bytes
  reqs : List PrimRequest
  deriving DecidableEq, Repr

/-- One turn of the loop of R155: `CB <- NONCE ‖ be64_encode((CTR0 + I) mod 2^64)`; `KS <- E(KEY[CTR], CB)`; `OUT <- OUT ‖
xorn(block(A, I), KS)`. It is `E` in both directions (R156, R161), and a short last block gives a short output (R154). -/
def ctrBlock (P : Params) (k : Key) (nonce : Half) (ctr0 : U64) (a : Bytes) (r : CtrRegs) (i : Nat) : CtrRegs :=
  let cb := counterBlock nonce (add64 ctr0 i)
  let ks := P.E k cb
  { out := appendOut r.out (xorn (block a i) ks), reqs := r.reqs ++ [.encryptBlock k cb] }

/-- The loop `for I = 0 to (|A| + 15) div 16 - 1` of R155 and R156; no turn when `|A| = 0` (R152). -/
def ctrLoop (P : Params) (k : Key) (v : Block) (a : Bytes) : CtrRegs :=
  let (nonce, ctr0) := splitIv v
  (List.range (nblocksCeil a.length)).foldl (ctrBlock P k nonce ctr0 a) ⟨[], []⟩

/-- A CTR data command: `f` tells the two apart in the info byte of `NotConstructed` and in nothing else (R155, R156). -/
def ctrData (P : Params) (f : Func) (a : Bytes) (s : State) : Result :=
  withinCap P (fitsCap P.bufCap a.length) a.length <|
    withInstance .ctr f s fun inst =>
      let r := ctrLoop P inst.key inst.iv a
      .next (respondOk r.out (sendRequests r.reqs s))

/-- `ctr_transform(k, v, A)`, byte by byte: `A[x] XOR E(k, nonce ‖ be64_encode((ctr0 + (x div 16)) mod 2^64))[x mod 16]` (R157);
`enc` is `E(k, ·)`. -/
def ctrTransform (enc : Block → Block) (v : Block) (a : Bytes) : Bytes :=
  a.mapIdx fun x d =>
    d ^^^ byteAt (enc (counterBlock (splitIv v).1 (add64 (splitIv v).2 (x / 16)))) ⟨x % 16, Nat.mod_lt x (by decide)⟩

/-- `CTR.ENCRYPT` on this hardware (R155). -/
def execCtrEncrypt (data : Bytes) (s : State) : Result := ctrData Config.hardware .encrypt data s

/-- `CTR.DECRYPT` on this hardware (R156). -/
def execCtrDecrypt (data : Bytes) (s : State) : Result := ctrData Config.hardware .decrypt data s

end Sys2Proof.Machine
end

