-- ==== Sys2Proof/Machine/Dispatch.lean ====
section
/-! DEFINITION. One arm for each command: the meaning it has on this hardware. -/

namespace Sys2Proof.Machine

/-- A decoded command performed on a state, as one indivisible transition (R8, R49). -/
def exec (i : Instr) (s : State) : Host.Outcome State Fault Refusal :=
  match i with
  | .cbcConstruct key iv => Sys2Proof.Machine.execCbcConstruct key iv s
  | .cbcSetKey key => Sys2Proof.Machine.execCbcSetKey key s
  | .cbcSetIv iv => Sys2Proof.Machine.execCbcSetIv iv s
  | .cbcEncrypt data => Sys2Proof.Machine.execCbcEncrypt data s
  | .cbcDecrypt data => Sys2Proof.Machine.execCbcDecrypt data s
  | .ctrConstruct key iv => Sys2Proof.Machine.execCtrConstruct key iv s
  | .ctrSetKey key => Sys2Proof.Machine.execCtrSetKey key s
  | .ctrSetIv iv => Sys2Proof.Machine.execCtrSetIv iv s
  | .ctrEncrypt data => Sys2Proof.Machine.execCtrEncrypt data s
  | .ctrDecrypt data => Sys2Proof.Machine.execCtrDecrypt data s

end Sys2Proof.Machine
end

