-- ==== Sys2Proof/Machine/Step.lean ====
section
/-! DEFINITION. One step of the machine, and how a command is placed to be the next one. -/

namespace Sys2Proof.Machine

/-- One step: the host's next event (R8, R29, R54). -/
def step : State → Host.Outcome State Fault Refusal := acceptNext exec

/-- The command of an opcode-table word issued by the host before everything it has still to send, so that the next step
runs it (log 2). -/
def State.withFetchWord (s : State) (nbits w : Nat) : State :=
  { s with hostInput := .command (tableCommand nbits w) :: s.hostInput }

end Sys2Proof.Machine
end

