-- ==== Sys2Proof/Machine/Builds.lean ====
section
/-! DEFINITION. Every build of CORE: the machine with the three open parameters of the spec as an argument
(92_eei_decisions.md, "a model built from this spec has exactly these three arguments"). `exec` and `step` are those of
`Config.hardware`; the hardened unpadder (R129) and a finite `BUF_CAP` (R52) are other builds. -/

namespace Sys2Proof.Machine

/-- A command performed by the build `P`. -/
def buildExec (P : Params) (i : Instr) (s : State) : Result :=
  match i with
  | .cbcConstruct key iv => construct P .cbc key iv s
  | .cbcSetKey key => setKey P .cbc key s
  | .cbcSetIv iv => setIv P .cbc iv s
  | .cbcEncrypt data => cbcEncrypt P data s
  | .cbcDecrypt data => cbcDecrypt P data s
  | .ctrConstruct key iv => construct P .ctr key iv s
  | .ctrSetKey key => setKey P .ctr key s
  | .ctrSetIv iv => setIv P .ctr iv s
  | .ctrEncrypt data => ctrData P .encrypt data s
  | .ctrDecrypt data => ctrData P .decrypt data s

/-- One step of the build `P`. -/
def buildStep (P : Params) : State → Result := acceptNext (buildExec P)

end Sys2Proof.Machine
end

