-- ==== Sys2Proof/Machine/Syntax.lean ====
section
/-! DEFINITION. The textual form of commands and responses, written and read (spec/30_encoding.md R69; 92_eei_decisions.md D21).
Nothing the machine does depends on it. -/

namespace Sys2Proof.Machine

/-- Text, as characters. -/
abbrev Text := List Char

/-- A hex digit, lower case (D21): the ten decimal digits, then the letters from `a`. -/
def hexDigit (n : BitVec 4) : Char :=
  if n.toNat < 10 then Char.ofNat ('0'.toNat + n.toNat) else Char.ofNat ('a'.toNat + (n.toNat - 10))

/-- The value of a character between `lo` and `hi`, when `lo` stands for `base`. -/
def digitBetween (lo hi : Char) (base : Nat) (x : Char) : Option (BitVec 4) :=
  if lo.toNat ≤ x.toNat ∧ x.toNat ≤ hi.toNat then some (BitVec.ofNat 4 (base + (x.toNat - lo.toNat))) else none

/-- The value of a hex digit; either case is read (log 10). -/
def hexValue (x : Char) : Option (BitVec 4) :=
  ((digitBetween '0' '9' 0 x).or (digitBetween 'a' 'f' 10 x)).or (digitBetween 'A' 'F' 10 x)

/-- A byte as two hex digits, the more significant first. -/
def hexByte (b : Byte) : Text := [hexDigit (b.extractLsb' 4 4), hexDigit (b.extractLsb' 0 4)]

/-- "Two per byte, index 0 first" (R69); the empty sequence is written as nothing (D21, log 10). -/
def hexText (bs : Bytes) : Text := bs.flatMap hexByte

/-- Two hex digits per byte, index 0 first. -/
def readHexDigits : Text → Option Bytes
  | [] => some []
  | [_] => none
  | c :: d :: cs =>
    match hexValue c, hexValue d, readHexDigits cs with
    | some hi, some lo, some bs => some ((hi ++ lo) :: bs)
    | _, _, _ => none

/-- An operand's bytes: hex digits, or `""` for the empty sequence (R69). -/
def readHex (t : Text) : Option Bytes := if t = ['"', '"'] then some [] else readHexDigits t

/-- `CBC` or `CTR`. -/
def Engine.text : Engine → Text
  | .cbc => ['C', 'B', 'C']
  | .ctr => ['C', 'T', 'R']

/-- The name of an operation (R62). -/
def Func.text : Func → Text
  | .construct => ['C', 'O', 'N', 'S', 'T', 'R', 'U', 'C', 'T']
  | .setKey => ['S', 'E', 'T', '_', 'K', 'E', 'Y']
  | .setIv => ['S', 'E', 'T', '_', 'I', 'V']
  | .encrypt => ['E', 'N', 'C', 'R', 'Y', 'P', 'T']
  | .decrypt => ['D', 'E', 'C', 'R', 'Y', 'P', 'T']

/-- The name of the first operand, with its `=` (R69). -/
def operandName : Func → Text
  | .construct | .setKey => ['k', 'e', 'y', '=']
  | .setIv => ['i', 'v', '=']
  | .encrypt | .decrypt => ['d', 'a', 't', 'a', '=']

/-- What stands before the first operand: `<ENGINE>.<FUNC> name=`. -/
def lineHead (e : Engine) (f : Func) : Text :=
  Engine.text e ++ '.' :: Func.text f ++ ' ' :: operandName f

/-- The text of an instruction's operands, after the first `name=`. -/
def operandsText (i : Instr) : Text :=
  hexText i.operandA ++
    match i.func.format with
    | .k1 => []
    | .k2 => [',', ' ', 'i', 'v', '='] ++ hexText i.operandB

/-- The line of a command: `<ENGINE>.<FUNC> <operand>[, <operand>]` (R69). -/
def asmLine (i : Instr) : Text := lineHead i.engine i.func ++ operandsText i

/-- The operands of a line, after its head. -/
def readOperands (f : Func) (t : Text) : Option (Bytes × Bytes) :=
  match f.format with
  | .k1 => (readHex t).map fun a => (a, [])
  | .k2 =>
    match List.isPrefixOf? [',', ' ', 'i', 'v', '='] (t.dropWhile (· != ',')) with
    | none => none
    | some t' =>
      match readHex (t.takeWhile (· != ',')), readHex t' with
      | some a, some b => some (a, b)
      | _, _ => none

/-- A line without its comment (`;` to the end) and the spaces before it. -/
def stripComment (t : Text) : Text := ((t.takeWhile (· != ';')).reverse.dropWhile (· == ' ')).reverse

/-- The ten line heads. -/
def lineHeads : List (Engine × Func) :=
  [(.cbc, .construct), (.cbc, .setKey), (.cbc, .setIv), (.cbc, .encrypt), (.cbc, .decrypt),
   (.ctr, .construct), (.ctr, .setKey), (.ctr, .setIv), (.ctr, .encrypt), (.ctr, .decrypt)]

/-- The command a line stands for (R69); nothing for a line that is no command. -/
def readLine (t : Text) : Option Instr :=
  lineHeads.findSome? fun (e, f) =>
    match List.isPrefixOf? (lineHead e f) (stripComment t) with
    | none => none
    | some rest => (readOperands f rest).map fun (a, b) => assemble e f a b

/-- The name of a status (R191). -/
def Status.text : Status → Text
  | .ok => ['O', 'K']
  | .invalidKeyIvLength => ['I', 'n', 'v', 'a', 'l', 'i', 'd', 'K', 'e', 'y', 'I', 'v', 'L', 'e', 'n', 'g', 't', 'h']
  | .malformedCiphertextLength =>
    ['M', 'a', 'l', 'f', 'o', 'r', 'm', 'e', 'd', 'C', 'i', 'p', 'h', 'e', 'r', 't', 'e', 'x', 't'] ++
      ['L', 'e', 'n', 'g', 't', 'h']
  | .padLengthError => ['P', 'a', 'd', 'L', 'e', 'n', 'g', 't', 'h', 'E', 'r', 'r', 'o', 'r']
  | .padInconsistentError => ['P', 'a', 'd', 'I', 'n', 'c', 'o', 'n', 's', 'i', 's', 't', 'e', 'n', 't', 'E', 'r', 'r', 'o', 'r']
  | .notConstructed => ['N', 'o', 't', 'C', 'o', 'n', 's', 't', 'r', 'u', 'c', 't', 'e', 'd']
  | .illegalCommand => ['I', 'l', 'l', 'e', 'g', 'a', 'l', 'C', 'o', 'm', 'm', 'a', 'n', 'd']

/-- A response as `-> <STATUS>(info) out=hexbytes` (R69). -/
def responseLine (r : Response) : Text :=
  ['-', '>', ' '] ++ r.status.text ++ '(' :: hexByte r.info ++ [')', ' ', 'o', 'u', 't', '='] ++ hexText r.out

end Sys2Proof.Machine
end

