-- ==== Sys2Proof/Safety.lean ====
section
/-! DEFINITION. What claims mean by a safe step, a legal response, a good state, and the observable result of a run. -/

namespace Sys2Proof.Machine

/-- A result that is a next state: no fault, no refusal. -/
def Answers (r : Result) : Prop := ∃ t, r = .next t

/-- A response of the form R65 and R191 allow: `OK` with info 0, or an error with one of its info bytes and no output. -/
def Response.Legal (r : Response) : Prop :=
  match r.status with
  | .ok => r.info = 0x00
  | .invalidKeyIvLength => r.out = [] ∧ (r.info = 0x00 ∨ r.info = 0x01)
  | .malformedCiphertextLength => r.out = [] ∧ r.info.toNat < 16
  | .padLengthError => r.out = [] ∧ (r.info = 0x00 ∨ r.info = 0x01)
  | .padInconsistentError => r.out = [] ∧ (r.info = 0x00 ∨ r.info = 0x01)
  | .notConstructed => r.out = [] ∧ ∃ e f, f ≠ Func.construct ∧ r.info = opByte e f
  | .illegalCommand => r.out = [] ∧ ∃ w, decodeOp r.info = .error w

/-- A good state: the commands since the last reset have each been answered, and every response is legal. -/
structure Inv (s : State) : Prop where
  answered : s.ci ≤ s.responses.length
  legal : ∀ r ∈ s.responses, r.Legal

/-- The responses `t` has and `s` had not, when `s` leads to `t`. -/
def newResponses (s t : State) : List Response := t.responses.drop s.responses.length

/-- The response a result gives to the one command it performed on `s`, if it gives one. -/
def answerOf (s : State) (r : Result) : Option Response :=
  match r with
  | .next t => (newResponses s t).head?
  | .fault _ => none
  | .refused _ => none

/-- "Two models agree on a run when they give the same responses and the same final `CONSTRUCTED` bits, and the same `KEY`
and `IV` for each engine whose `CONSTRUCTED` is 1" (R232). -/
def SameObservation (s t : State) : Prop := s.responses = t.responses ∧ s.cbc = t.cbc ∧ s.ctr = t.ctr

end Sys2Proof.Machine
end

