-- ==== Sys2Proof/Certificates/Slice0/Obligations.lean ====
section
/-! DEFINITION. The statements for the provers: encodings, what each command answers and leaves unchanged, the laws of the
units, the errors, isolation of the two engines, and the invariant every step keeps. `Config.hardware.E k` and
`Config.hardware.D k` are the spec's `E(k, ·)` and `D(k, ·)`, of which nothing is known but that they are inverse. -/

open Sys2Proof Sys2Proof.Machine

/-! ### Encoding -/

/-- The ten command bytes of R63, each with any operands, decode to their commands (R62, R63, R64). That a `B` beside a K1 byte is not
read is the model's choice (log 7, DESIGN CHOICE), for the eight K1 bytes with `b` not empty. -/
def Obligations.OpcodeMapWordsDecode : Prop :=
  ∀ a b : Bytes,
    decode ⟨0x00, a, b⟩ = .ok (.cbcConstruct a b) ∧
    decode ⟨0x01, a, b⟩ = .ok (.cbcSetKey a) ∧
    decode ⟨0x02, a, b⟩ = .ok (.cbcSetIv a) ∧
    decode ⟨0x03, a, b⟩ = .ok (.cbcEncrypt a) ∧
    decode ⟨0x04, a, b⟩ = .ok (.cbcDecrypt a) ∧
    decode ⟨0x10, a, b⟩ = .ok (.ctrConstruct a b) ∧
    decode ⟨0x11, a, b⟩ = .ok (.ctrSetKey a) ∧
    decode ⟨0x12, a, b⟩ = .ok (.ctrSetIv a) ∧
    decode ⟨0x13, a, b⟩ = .ok (.ctrEncrypt a) ∧
    decode ⟨0x14, a, b⟩ = .ok (.ctrDecrypt a)

/-- The decoder is the opcode map: a byte that selects a row decodes to the row's command, no byte selects two rows, and the
bytes that select none, which are those with `RSV != 000` or `FUNC` in `0x5..0xF`, are rejected (R61, R62, R63, R66). That a K1 row's
command is the same whatever `b` holds is the model's choice (log 7, DESIGN CHOICE). -/
def Obligations.DecoderFollowsTheOpcodeMap : Prop :=
  ∀ (op : Byte) (a b : Bytes),
    (∀ r ∈ opcodeTable, r.selects op = true → decode ⟨op, a, b⟩ = .ok (assemble r.engine r.func a b)) ∧
    (∀ r ∈ opcodeTable, ∀ r' ∈ opcodeTable, r.selects op = true → r'.selects op = true → r = r') ∧
    ((∃ w, decode ⟨op, a, b⟩ = .error w) ↔ ∀ r ∈ opcodeTable, r.selects op = false) ∧
    ((∃ w, decode ⟨op, a, b⟩ = .error w) ↔ opRsv op ≠ 0#3 ∨ 5 ≤ (opFunc op).toNat)

/-- Decode and encode agree in both directions: every command is the decoding of its record, that record is in the form the
host sends, and a record in that form that decodes to a command is that command's record (R60 to R64). -/
def Obligations.DecodeEncodeAgree : Prop :=
  (∀ i : Instr, decode (encode i) = .ok i ∧ (encode i).canonical = true) ∧
  (∀ (c : Command) (i : Instr), c.canonical = true → (decode c = .ok i ↔ encode i = c))

/-- A command read back from its line of text is the command (R69). That the empty sequence is written as nothing is the
model's choice between R69 and D21 (log 10); reading accepts both. -/
def Obligations.CommandTextRoundTrip : Prop :=
  (∀ i : Instr, readLine (asmLine i) = some i) ∧
  (∀ (i : Instr) (comment : Text), readLine (asmLine i ++ ' ' :: ';' :: comment) = some i)

/-! ### The step -/

/-- When the host's next event is a command that decodes, the step is `exec` of it on the state with that event taken
(R53, R54). -/
def Obligations.StepRunsTheDecodedCommand : Prop :=
  ∀ (s : State) (c : Command) (rest : List HostEvent) (i : Instr),
    s.hostInput = .command c :: rest → decode c = .ok i → step s = exec i { s with hostInput := rest }

/-- A reserved command byte raises `IllegalCommand` with the byte as info, whatever its operands, and no state of either
engine changes (R66, R197). -/
def Obligations.ReservedCommandRaisesIllegalCommand : Prop :=
  ∀ (s : State) (op : Byte) (a b : Bytes) (rest : List HostEvent),
    s.hostInput = .command ⟨op, a, b⟩ :: rest → opRsv op ≠ 0#3 ∨ 5 ≤ (opFunc op).toNat →
    step s = .next { s with
      hostInput := rest
      responses := s.responses ++ [⟨.illegalCommand, op, []⟩]
      ci := s.ci + 1 }

/-- With no event pending CORE waits and nothing changes. That a step with nothing to do is a next state, the same one, is the
model's choice (log 2) for R222's "it waits for commands". -/
def Obligations.StepWaitsForTheHost : Prop :=
  ∀ s : State, s.hostInput = [] → step s = .next s

/-- Reset, between commands or with one in progress, leaves both engines not constructed and `ci` 0, delivers no response and
asks the primitive nothing (R220, R221). That earlier responses, earlier requests and the host's remaining events stay is the
model's choice (log 11). -/
def Obligations.ResetAbandonsTheOperation : Prop :=
  ∀ (s : State) (inProgress : Option Command) (rest : List HostEvent),
    s.hostInput = .reset inProgress :: rest →
    step s = .next { s with cbc := none, ctr := none, ci := 0, hostInput := rest }

/-- After reset neither engine is constructed, so neither holds a key or an IV, `ci` is 0 and no response is pending (R34, R220).
That the lists of the host's events, of the responses and of the requests start empty is the model's choice (logs 2, 4, 5). -/
def Obligations.ResetStateHoldsNothing : Prop :=
  (∀ e : Engine, State.reset.constructed e = false ∧ State.reset.engine e = none) ∧
  State.reset.ci = 0 ∧ State.reset.responses = [] ∧ State.reset.hostInput = [] ∧ State.reset.requests = []

/-- Every command in every state, and every step, answers a next state: no command faults or is refused (R190, R203;
92_eei_decisions.md, "every command in every state has one defined outcome"). That the step with no event pending is a next state is the
model's choice (log 2, DESIGN CHOICE), and that a reset is one step too (log 11, DESIGN CHOICE). -/
def Obligations.EveryStepAnswers : Prop :=
  (∀ s : State, Answers (step s)) ∧ (∀ (i : Instr) (s : State), Answers (exec i s))

/-- A response, once delivered, is never changed: every step keeps the responses delivered before it, in order, at the front
(R28). A reset step keeps them too, which is the model's choice (log 11). -/
def Obligations.DeliveredResponsesNeverChange : Prop :=
  ∀ s t : State, step s = .next t → s.responses <+: t.responses

/-- The invariant: the commands since the last reset have each been answered and every response is legal. Every step from a
state that meets it gives one that does (R65, R191, R199). -/
def Obligations.StepKeepsTheInvariant : Prop :=
  ∀ s t : State, Inv s → step s = .next t → Inv t

/-- The invariant holds after reset. -/
def Obligations.ResetMeetsTheInvariant : Prop := Inv State.reset

/-! ### Configuration commands: result and frame -/

/-- Here and below `responses` is the model's record of the responses given and `requests` its record of what the primitive was asked
(logs 4, 5). `CBC.CONSTRUCT` (R100): two operands of 16 bytes become the key and the IV, a bad key is reported before a bad IV, and on an
error nothing but the response and `ci` changes. -/
def Obligations.CbcConstructLoadsKeyAndIv : Prop :=
  ∀ (a b : Bytes) (s : State),
    decode ⟨0x00, a, b⟩ = .ok (.cbcConstruct a b) ∧
    (∀ (ha : a.length = 16) (hb : b.length = 16),
      exec (.cbcConstruct a b) s = .next { s with
        cbc := some ⟨⟨a, ha⟩, ⟨b, hb⟩⟩
        requests := s.requests ++ [.init ⟨a, ha⟩]
        responses := s.responses ++ [⟨.ok, 0x00, []⟩]
        ci := s.ci + 1 }) ∧
    (a.length ≠ 16 →
      exec (.cbcConstruct a b) s = .next { s with
        responses := s.responses ++ [⟨.invalidKeyIvLength, 0x00, []⟩], ci := s.ci + 1 }) ∧
    (a.length = 16 → b.length ≠ 16 →
      exec (.cbcConstruct a b) s = .next { s with
        responses := s.responses ++ [⟨.invalidKeyIvLength, 0x01, []⟩], ci := s.ci + 1 })

/-- `CTR.CONSTRUCT` (R101), as `CBC.CONSTRUCT` on the CTR engine; the CBC engine is not touched. -/
def Obligations.CtrConstructLoadsKeyAndIv : Prop :=
  ∀ (a b : Bytes) (s : State),
    decode ⟨0x10, a, b⟩ = .ok (.ctrConstruct a b) ∧
    (∀ (ha : a.length = 16) (hb : b.length = 16),
      exec (.ctrConstruct a b) s = .next { s with
        ctr := some ⟨⟨a, ha⟩, ⟨b, hb⟩⟩
        requests := s.requests ++ [.init ⟨a, ha⟩]
        responses := s.responses ++ [⟨.ok, 0x00, []⟩]
        ci := s.ci + 1 }) ∧
    (a.length ≠ 16 →
      exec (.ctrConstruct a b) s = .next { s with
        responses := s.responses ++ [⟨.invalidKeyIvLength, 0x00, []⟩], ci := s.ci + 1 }) ∧
    (a.length = 16 → b.length ≠ 16 →
      exec (.ctrConstruct a b) s = .next { s with
        responses := s.responses ++ [⟨.invalidKeyIvLength, 0x01, []⟩], ci := s.ci + 1 })

/-- `CBC.SET_KEY` (R102): the key is replaced and the IV stays; `NotConstructed` comes before the length. -/
def Obligations.CbcSetKeyReplacesTheKey : Prop :=
  ∀ (a : Bytes) (s : State),
    decode ⟨0x01, a, []⟩ = .ok (.cbcSetKey a) ∧
    (s.cbc = none → exec (.cbcSetKey a) s = .next { s with
      responses := s.responses ++ [⟨.notConstructed, 0x01, []⟩], ci := s.ci + 1 }) ∧
    (∀ inst, s.cbc = some inst → a.length ≠ 16 → exec (.cbcSetKey a) s = .next { s with
      responses := s.responses ++ [⟨.invalidKeyIvLength, 0x00, []⟩], ci := s.ci + 1 }) ∧
    (∀ inst (ha : a.length = 16), s.cbc = some inst → exec (.cbcSetKey a) s = .next { s with
      cbc := some ⟨⟨a, ha⟩, inst.iv⟩
      requests := s.requests ++ [.init ⟨a, ha⟩]
      responses := s.responses ++ [⟨.ok, 0x00, []⟩]
      ci := s.ci + 1 })

/-- `CTR.SET_KEY` (R103), as `CBC.SET_KEY` on the CTR engine. -/
def Obligations.CtrSetKeyReplacesTheKey : Prop :=
  ∀ (a : Bytes) (s : State),
    decode ⟨0x11, a, []⟩ = .ok (.ctrSetKey a) ∧
    (s.ctr = none → exec (.ctrSetKey a) s = .next { s with
      responses := s.responses ++ [⟨.notConstructed, 0x11, []⟩], ci := s.ci + 1 }) ∧
    (∀ inst, s.ctr = some inst → a.length ≠ 16 → exec (.ctrSetKey a) s = .next { s with
      responses := s.responses ++ [⟨.invalidKeyIvLength, 0x00, []⟩], ci := s.ci + 1 }) ∧
    (∀ inst (ha : a.length = 16), s.ctr = some inst → exec (.ctrSetKey a) s = .next { s with
      ctr := some ⟨⟨a, ha⟩, inst.iv⟩
      requests := s.requests ++ [.init ⟨a, ha⟩]
      responses := s.responses ++ [⟨.ok, 0x00, []⟩]
      ci := s.ci + 1 })

/-- `CBC.SET_IV` (R104): the IV is replaced, the key and the primitive instance stay. -/
def Obligations.CbcSetIvReplacesTheIv : Prop :=
  ∀ (a : Bytes) (s : State),
    decode ⟨0x02, a, []⟩ = .ok (.cbcSetIv a) ∧
    (s.cbc = none → exec (.cbcSetIv a) s = .next { s with
      responses := s.responses ++ [⟨.notConstructed, 0x02, []⟩], ci := s.ci + 1 }) ∧
    (∀ inst, s.cbc = some inst → a.length ≠ 16 → exec (.cbcSetIv a) s = .next { s with
      responses := s.responses ++ [⟨.invalidKeyIvLength, 0x01, []⟩], ci := s.ci + 1 }) ∧
    (∀ inst (ha : a.length = 16), s.cbc = some inst → exec (.cbcSetIv a) s = .next { s with
      cbc := some ⟨inst.key, ⟨a, ha⟩⟩
      responses := s.responses ++ [⟨.ok, 0x00, []⟩]
      ci := s.ci + 1 })

/-- `CTR.SET_IV` (R105), as `CBC.SET_IV` on the CTR engine: the nonce and the initial counter of later commands are the two halves
of the new IV. -/
def Obligations.CtrSetIvReplacesTheIv : Prop :=
  ∀ (a : Bytes) (s : State),
    decode ⟨0x12, a, []⟩ = .ok (.ctrSetIv a) ∧
    (s.ctr = none → exec (.ctrSetIv a) s = .next { s with
      responses := s.responses ++ [⟨.notConstructed, 0x12, []⟩], ci := s.ci + 1 }) ∧
    (∀ inst, s.ctr = some inst → a.length ≠ 16 → exec (.ctrSetIv a) s = .next { s with
      responses := s.responses ++ [⟨.invalidKeyIvLength, 0x01, []⟩], ci := s.ci + 1 }) ∧
    (∀ inst (ha : a.length = 16), s.ctr = some inst → exec (.ctrSetIv a) s = .next { s with
      ctr := some ⟨inst.key, ⟨a, ha⟩⟩
      responses := s.responses ++ [⟨.ok, 0x00, []⟩]
      ci := s.ci + 1 }) ∧
    (∀ (ha : a.length = 16) (hd : (a.drop 8).length = 8),
      (splitIv ⟨a, ha⟩).1.toList = a.take 8 ∧ (splitIv ⟨a, ha⟩).2 = be64Decode ⟨a.drop 8, hd⟩)

/-- `CONSTRUCT` on a constructed engine, with both operands of 16 bytes, leaves the engines as `SET_KEY` and then `SET_IV` do
(R70, R110); with a bad operand it writes neither register. -/
def Obligations.ConstructIsSetKeyThenSetIv : Prop :=
  ∀ (a b : Bytes) (s : State),
    (s.cbc ≠ none → a.length = 16 → b.length = 16 →
      ∃ t u w, exec (.cbcConstruct a b) s = .next t ∧ exec (.cbcSetKey a) s = .next u ∧ exec (.cbcSetIv b) u = .next w ∧
        t.cbc = w.cbc ∧ t.ctr = w.ctr) ∧
    (s.ctr ≠ none → a.length = 16 → b.length = 16 →
      ∃ t u w, exec (.ctrConstruct a b) s = .next t ∧ exec (.ctrSetKey a) s = .next u ∧ exec (.ctrSetIv b) u = .next w ∧
        t.cbc = w.cbc ∧ t.ctr = w.ctr) ∧
    (a.length ≠ 16 ∨ b.length ≠ 16 →
      ∃ t u, exec (.cbcConstruct a b) s = .next t ∧ exec (.ctrConstruct a b) s = .next u ∧
        t.cbc = s.cbc ∧ t.ctr = s.ctr ∧ u.cbc = s.cbc ∧ u.ctr = s.ctr)

/-- Two states give the same answers to the two data commands of an engine, on all data. -/
def sameDataAnswers (e : Engine) (t u : State) : Prop :=
  ∀ i : Instr, i.engine = e → i.func = .encrypt ∨ i.func = .decrypt → answerOf t (exec i t) = answerOf u (exec i u)

/-- A key or an IV that a `CONSTRUCT`, `SET_KEY` or `SET_IV` has loaded is in force for the next command of its engine: `ENCRYPT` and
`DECRYPT` then answer, on all data, what they answer in any state `u` whose engine holds the new configuration (R106, R109). -/
def Obligations.NewConfigurationIsInForceNext : Prop :=
  ∀ (s u : State) (k : Key) (v : Block) (inst : EngineInstance),
    (u.cbc = some ⟨k, v⟩ →
      ∃ t, exec (.cbcConstruct k.toList v.toList) s = .next t ∧ sameDataAnswers .cbc t u) ∧
    (s.cbc = some inst → u.cbc = some ⟨k, inst.iv⟩ →
      ∃ t, exec (.cbcSetKey k.toList) s = .next t ∧ sameDataAnswers .cbc t u) ∧
    (s.cbc = some inst → u.cbc = some ⟨inst.key, v⟩ →
      ∃ t, exec (.cbcSetIv v.toList) s = .next t ∧ sameDataAnswers .cbc t u) ∧
    (u.ctr = some ⟨k, v⟩ →
      ∃ t, exec (.ctrConstruct k.toList v.toList) s = .next t ∧ sameDataAnswers .ctr t u) ∧
    (s.ctr = some inst → u.ctr = some ⟨k, inst.iv⟩ →
      ∃ t, exec (.ctrSetKey k.toList) s = .next t ∧ sameDataAnswers .ctr t u) ∧
    (s.ctr = some inst → u.ctr = some ⟨inst.key, v⟩ →
      ∃ t, exec (.ctrSetIv v.toList) s = .next t ∧ sameDataAnswers .ctr t u)

/-! ### The primitive -/

/-- The law of the primitive, in every build: for every key the two functions are inverse to each other, so each is a permutation of
the blocks (R181, R182). Nothing else is known of them. -/
def Obligations.PrimitiveIsInvertible : Prop :=
  ∀ (P : Params) (k : Key),
    (∀ b : Block, P.D k (P.E k b) = b ∧ P.E k (P.D k b) = b) ∧
    Function.Bijective (P.E k) ∧ Function.Bijective (P.D k)

/-! ### CBC commands: result and frame -/

/-- `CBC.ENCRYPT` (R123): `OUT` is the chain over the padded message, the requests to the primitive are its inputs in index order,
and nothing else changes; the loop of the pseudocode and the chain function agree. -/
def Obligations.CbcEncryptOutput : Prop :=
  ∀ (a : Bytes) (s : State),
    decode ⟨0x03, a, []⟩ = .ok (.cbcEncrypt a) ∧
    (s.cbc = none → exec (.cbcEncrypt a) s = .next { s with
      responses := s.responses ++ [⟨.notConstructed, 0x03, []⟩], ci := s.ci + 1 }) ∧
    (∀ inst, s.cbc = some inst → exec (.cbcEncrypt a) s = .next { s with
      requests := s.requests ++
        (cbcChainInputs (Config.hardware.E inst.key) inst.iv (chunks (pad a))).map (.encryptBlock inst.key)
      responses := s.responses ++
        [⟨.ok, 0x00, concatBlocks (cbcChainEnc (Config.hardware.E inst.key) inst.iv (chunks (pad a)))⟩]
      ci := s.ci + 1 })

/-- `CBC.DECRYPT` on this hardware (R124, R126, R127, R128): the length check first and with no request made, then the chain, then
the pad byte alone decides; nothing but the response, the requests and `ci` changes. That the requests are recorded in index order is the
model's choice (log 5, DESIGN CHOICE), which R56 leaves to the implementation. -/
def Obligations.CbcDecryptOutcome : Prop :=
  ∀ (a : Bytes) (s : State),
    decode ⟨0x04, a, []⟩ = .ok (.cbcDecrypt a) ∧
    (s.cbc = none → exec (.cbcDecrypt a) s = .next { s with
      responses := s.responses ++ [⟨.notConstructed, 0x04, []⟩], ci := s.ci + 1 }) ∧
    (∀ inst, s.cbc = some inst → ¬ (0 < a.length ∧ a.length % 16 = 0) → exec (.cbcDecrypt a) s = .next { s with
      responses := s.responses ++ [⟨.malformedCiphertextLength, BitVec.ofNat 8 (a.length % 16), []⟩]
      ci := s.ci + 1 }) ∧
    (∀ inst pt, s.cbc = some inst → 0 < a.length → a.length % 16 = 0 →
      pt = concatBlocks (cbcChainDec (Config.hardware.D inst.key) inst.iv (chunks a)) →
      pt.length = a.length ∧ ∃ p, pt.getLast? = some p ∧
        exec (.cbcDecrypt a) s = .next { s with
          requests := s.requests ++ (chunks a).map (.decryptBlock inst.key)
          responses := s.responses ++
            [if p.toNat = 0 then ⟨.padLengthError, 0x00, []⟩
             else if pt.length < p.toNat then ⟨.padLengthError, 0x01, []⟩
             else ⟨.ok, 0x00, pt.take (pt.length - p.toNat)⟩]
          ci := s.ci + 1 })

/-- `CBC.DECRYPT` of every build without a bound: `NotConstructed` first, then the length check, then what the build's unpadder makes of
the decrypted blocks, with `PAD_VALIDATE` set or not (R127, R129, R195). That the requests are recorded in index order is the model's
choice (log 5, DESIGN CHOICE), which R56 leaves to the implementation. -/
def Obligations.CbcDecryptOfEveryBuild : Prop :=
  ∀ (P : Params) (a : Bytes) (s : State), P.bufCap = none →
    (s.cbc = none → buildExec P (.cbcDecrypt a) s = .next { s with
      responses := s.responses ++ [⟨.notConstructed, 0x04, []⟩], ci := s.ci + 1 }) ∧
    (∀ inst, s.cbc = some inst → ¬ (0 < a.length ∧ a.length % 16 = 0) → buildExec P (.cbcDecrypt a) s = .next { s with
      responses := s.responses ++ [⟨.malformedCiphertextLength, BitVec.ofNat 8 (a.length % 16), []⟩]
      ci := s.ci + 1 }) ∧
    (∀ inst, s.cbc = some inst → 0 < a.length → a.length % 16 = 0 → buildExec P (.cbcDecrypt a) s = .next { s with
      requests := s.requests ++ (chunks a).map (.decryptBlock inst.key)
      responses := s.responses ++
        [match unpad P.padValidate (concatBlocks (cbcChainDec (P.D inst.key) inst.iv (chunks a))) with
         | .error e => ⟨e.status, e.info, []⟩
         | .ok out => ⟨.ok, 0x00, out⟩]
      ci := s.ci + 1 })

/-- Round trip (R133): with the same key and IV in force, `CBC.DECRYPT` of what `CBC.ENCRYPT` answered answers `OK` with the
message, for every message, with `PAD_VALIDATE` set or not. -/
def Obligations.CbcRoundTrip : Prop :=
  (∀ (s t : State) (inst : EngineInstance) (m : Bytes), s.cbc = some inst → t.cbc = some inst →
    ∃ c, answerOf s (exec (.cbcEncrypt m) s) = some ⟨.ok, 0x00, c⟩ ∧
      answerOf t (exec (.cbcDecrypt c) t) = some ⟨.ok, 0x00, m⟩) ∧
  (∀ (P : Params) (s t : State) (inst : EngineInstance) (m : Bytes), P.bufCap = none →
    s.cbc = some inst → t.cbc = some inst →
    ∃ c, answerOf s (buildExec P (.cbcEncrypt m) s) = some ⟨.ok, 0x00, c⟩ ∧
      answerOf t (buildExec P (.cbcDecrypt c) t) = some ⟨.ok, 0x00, m⟩)

/-- Output lengths (R130): encryption answers a positive multiple of 16 that exceeds the input by 1 to 16; a decryption that answers
`OK` answers `|A| - P` bytes, `P` the last plaintext byte. -/
def Obligations.CbcOutputLength : Prop :=
  ∀ (a out : Bytes) (s : State) (inst : EngineInstance), s.cbc = some inst →
    (answerOf s (exec (.cbcEncrypt a) s) = some ⟨.ok, 0x00, out⟩ →
      out.length = a.length + (16 - a.length % 16) ∧ out.length % 16 = 0 ∧
      a.length < out.length ∧ out.length ≤ a.length + 16) ∧
    (answerOf s (exec (.cbcDecrypt a) s) = some ⟨.ok, 0x00, out⟩ →
      ∃ p, (concatBlocks (cbcChainDec (Config.hardware.D inst.key) inst.iv (chunks a))).getLast? = some p ∧
        0 < p.toNat ∧ p.toNat ≤ a.length ∧ out.length = a.length - p.toNat)

/-- The chains by index (R122, R125): `c_i = E(k, xor16(b_i, c_{i-1}))` and `m_i = xor16(D(k, c_i), c_{i-1})`, where the value before
block 0 is the IV; one output block for each input block. -/
def Obligations.CbcChainsByIndex : Prop :=
  ∀ (f : Block → Block) (v : Block) (bs : List Block),
    (cbcChainEnc f v bs).length = bs.length ∧ (cbcChainDec f v bs).length = bs.length ∧
    (∀ (i : Nat) (b c : Block), bs[i]? = some b → (v :: cbcChainEnc f v bs)[i]? = some c →
      (cbcChainEnc f v bs)[i]? = some (f (xor16 b c))) ∧
    (∀ (i : Nat) (b c : Block), bs[i]? = some b → (v :: bs)[i]? = some c →
      (cbcChainDec f v bs)[i]? = some (xor16 (f b) c))

/-- The decrypt chain undoes the encrypt chain, for every build, key, IV and list of blocks (R125, R182). -/
def Obligations.CbcChainInverse : Prop :=
  ∀ (P : Params) (k : Key) (v : Block) (bs : List Block),
    cbcChainDec (P.D k) v (cbcChainEnc (P.E k) v bs) = bs

/-- The padder (R120): `p = 16 - (n mod 16)` bytes of value `p`, so the result is `16 * (n div 16 + 1)` bytes long. -/
def Obligations.PadderAppendsOneToSixteen : Prop :=
  ∀ (m : Bytes) (p : Nat), p = 16 - m.length % 16 →
    1 ≤ p ∧ p ≤ 16 ∧ pad m = m ++ List.replicate p (BitVec.ofNat 8 p) ∧
    (BitVec.ofNat 8 p).toNat = p ∧ (pad m).length = 16 * (m.length / 16 + 1)

/-- The chunker (R121) emits the blocks of a whole number of blocks in index order, and they make up the buffer. -/
def Obligations.ChunkerEmitsWholeBlocks : Prop :=
  ∀ (s : Bytes) (n : Nat), s.length = 16 * n →
    (chunks s).length = n ∧ (∀ k, k < n → ((chunks s)[k]?).map BytesN.toList = some (block s k)) ∧
    concatBlocks (chunks s) = s

/-- The unpadder of this hardware (R126, R128): the last byte alone decides, `p = L` gives the empty sequence, `p > L` fails. -/
def Obligations.UnpadderTrustsTheLastByte : Prop :=
  ∀ t : Bytes,
    (t = [] → unpad false t = .error .padEmptyBuffer) ∧
    (∀ p, t.getLast? = some p →
      (p.toNat = 0 → unpad false t = .error .padZero) ∧
      (t.length < p.toNat → unpad false t = .error .padTooLong) ∧
      (0 < p.toNat → p.toNat ≤ t.length → unpad false t = .ok (t.take (t.length - p.toNat)))) ∧
    [CommandError.padZero, .padTooLong, .padEmptyBuffer].map (fun e => (e.status, e.info)) =
      [(.padLengthError, 0x00), (.padLengthError, 0x01), (.padLengthError, 0x02)]

/-- The hardened unpadder (R129) fails where the trusting one fails, and further when `p > 16` or a trailing byte differs from `p`; it
undoes the padder. It is not the one of this hardware. -/
def Obligations.HardenedUnpadderChecksThePadding : Prop :=
  Config.hardware.padValidate = false ∧
  (∀ t : Bytes,
    (∀ e, unpad false t = .error e → unpad true t = .error e) ∧
    (∀ out p, unpad false t = .ok out → t.getLast? = some p →
      (16 < p.toNat → unpad true t = .error .padOverBlock) ∧
      (p.toNat ≤ 16 → (∃ x ∈ t.drop out.length, x ≠ p) → unpad true t = .error .padMismatch) ∧
      (p.toNat ≤ 16 → (∀ x ∈ t.drop out.length, x = p) → unpad true t = .ok out))) ∧
  (∀ m : Bytes, unpad true (pad m) = .ok m) ∧
  [CommandError.padOverBlock, .padMismatch].map (fun e => (e.status, e.info)) =
    [(.padInconsistentError, 0x00), (.padInconsistentError, 0x01)]

/-! ### CTR commands: result and frame -/

/-- `CTR.ENCRYPT` and `CTR.DECRYPT` (R155, R156): the loop over counter blocks answers the byte-by-byte transform of R157, asks the
primitive to encrypt the counter blocks in index order, and changes nothing else; the two differ only in the info byte of
`NotConstructed`. That the requests are recorded in index order is the model's choice (log 5, DESIGN CHOICE), which R56 leaves to the
implementation. -/
def Obligations.CtrOutputIsTheTransform : Prop :=
  ∀ (a : Bytes) (s : State),
    decode ⟨0x13, a, []⟩ = .ok (.ctrEncrypt a) ∧ decode ⟨0x14, a, []⟩ = .ok (.ctrDecrypt a) ∧
    (s.ctr = none →
      exec (.ctrEncrypt a) s = .next { s with
        responses := s.responses ++ [⟨.notConstructed, 0x13, []⟩], ci := s.ci + 1 } ∧
      exec (.ctrDecrypt a) s = .next { s with
        responses := s.responses ++ [⟨.notConstructed, 0x14, []⟩], ci := s.ci + 1 }) ∧
    (∀ inst t, s.ctr = some inst →
      t = { s with
        requests := s.requests ++ (List.range ((a.length + 15) / 16)).map fun i =>
          .encryptBlock inst.key (counterBlock (splitIv inst.iv).1 (add64 (splitIv inst.iv).2 i))
        responses := s.responses ++ [⟨.ok, 0x00, ctrTransform (Config.hardware.E inst.key) inst.iv a⟩]
        ci := s.ci + 1 } →
      exec (.ctrEncrypt a) s = .next t ∧ exec (.ctrDecrypt a) s = .next t)

/-- Self-inverse (R160): applied twice under the same key and IV, either command after either, the transform gives the data back;
it needs nothing of the primitive. -/
def Obligations.CtrSelfInverse : Prop :=
  (∀ (f : Block → Block) (v : Block) (d : Bytes), ctrTransform f v (ctrTransform f v d) = d) ∧
  (∀ (s t : State) (inst : EngineInstance) (d : Bytes), s.ctr = some inst → t.ctr = some inst →
    ∃ c, answerOf s (exec (.ctrEncrypt d) s) = some ⟨.ok, 0x00, c⟩ ∧
      answerOf s (exec (.ctrDecrypt d) s) = some ⟨.ok, 0x00, c⟩ ∧
      answerOf t (exec (.ctrDecrypt c) t) = some ⟨.ok, 0x00, d⟩ ∧
      answerOf t (exec (.ctrEncrypt c) t) = some ⟨.ok, 0x00, d⟩)

/-- Length preservation and locality (R159): the output is as long as the input, and output byte `x` depends on input byte `x` alone
among the input bytes. -/
def Obligations.CtrPreservesLength : Prop :=
  ∀ (d d' o o' : Bytes) (s : State) (inst : EngineInstance), s.ctr = some inst →
    (answerOf s (exec (.ctrEncrypt d) s) = some ⟨.ok, 0x00, o⟩ → o.length = d.length) ∧
    (answerOf s (exec (.ctrDecrypt d) s) = some ⟨.ok, 0x00, o⟩ → o.length = d.length) ∧
    (answerOf s (exec (.ctrEncrypt d) s) = some ⟨.ok, 0x00, o⟩ →
      answerOf s (exec (.ctrEncrypt d') s) = some ⟨.ok, 0x00, o'⟩ →
      ∀ x : Nat, d[x]? = d'[x]? → o[x]? = o'[x]?) ∧
    (answerOf s (exec (.ctrDecrypt d) s) = some ⟨.ok, 0x00, o⟩ →
      answerOf s (exec (.ctrDecrypt d') s) = some ⟨.ok, 0x00, o'⟩ →
      ∀ x : Nat, d[x]? = d'[x]? → o[x]? = o'[x]?)

/-- The counter blocks (R88, R151, R158, R164): block `i` keeps the nonce in bytes 0 to 7 and holds `(ctr0 + i) mod 2^64`, big-endian,
in bytes 8 to 15; a wrap carries nothing into the nonce. -/
def Obligations.CounterWrapKeepsTheNonce : Prop :=
  ∀ (v : Block) (i : Nat) (h : (v.toList.drop 8).length = 8),
    (counterBlock (splitIv v).1 (add64 (splitIv v).2 i)).toList.take 8 = v.toList.take 8 ∧
    beNat ((counterBlock (splitIv v).1 (add64 (splitIv v).2 i)).toList.drop 8) =
      ((be64Decode ⟨v.toList.drop 8, h⟩).toNat + i) % 2 ^ 64

/-- Splitting an IV and putting it together are inverse (R150, R23), so the first counter block is the IV itself. -/
def Obligations.SplitIvRebuildsTheIv : Prop :=
  (∀ v : Block, counterBlock (splitIv v).1 (splitIv v).2 = v ∧
    counterBlock (splitIv v).1 (add64 (splitIv v).2 0) = v) ∧
  (∀ (n : Half) (c : U64), splitIv (counterBlock n c) = (n, c))

/-- A short block (R81, R154): `xorn` is the XOR of the zero-padded block, cut to the true length. -/
def Obligations.ShortBlockIsACutFullBlock : Prop :=
  ∀ (a : Bytes) (b : Block), a.length ≤ 16 →
    xorn a b = (xor16 (zeroPad a) b).toList.take a.length ∧ (xorn a b).length = a.length

/-! ### Shared utilities -/

/-- `xor16` (R80): lane `j` is the XOR of the two bytes `j`; the corner cases with zero, itself and all ones. -/
def Obligations.Xor16WorksByLanes : Prop :=
  ∀ (a b : Block) (j : Fin 16),
    byteAt (xor16 a b) j = byteAt a j ^^^ byteAt b j ∧
    (b.toList = List.replicate 16 0x00 → xor16 a b = a) ∧
    (xor16 a a).toList = List.replicate 16 0x00 ∧
    (b.toList = List.replicate 16 0xFF → (byteAt (xor16 a b) j).toNat = 255 - (byteAt a j).toNat)

/-- The laws of `xor16` and `xorn` that the round trips rest on (R89). -/
def Obligations.XorLaws : Prop :=
  (∀ a b : Block, xor16 a b = xor16 b a) ∧
  (∀ a b c : Block, xor16 (xor16 a b) c = xor16 a (xor16 b c)) ∧
  (∀ a b : Block, xor16 (xor16 a b) b = a) ∧
  (∀ (a : Bytes) (b : Block), a.length ≤ 16 → xorn (xorn a b) b = a)

/-- Chunking (R82, R83): the block counts, the block lengths, and that the blocks one after another are the buffer. -/
def Obligations.BlocksPartitionTheBuffer : Prop :=
  ∀ (s : Bytes) (n : Nat), n = s.length →
    (n = 0 → nblocksCeil n = 0) ∧ (n % 16 = 0 → nblocksCeil n = n / 16 ∧ nblocksExact n = n / 16) ∧
    (n % 16 ≠ 0 → nblocksCeil n = n / 16 + 1) ∧
    (∀ k, 16 * k < n → (block s k).length = min 16 (n - 16 * k) ∧
      ∀ j, j < 16 → (block s k)[j]? = s[16 * k + j]?) ∧
    (List.range (nblocksCeil n)).flatMap (block s) = s

/-- `be64_decode` (R84): byte 0 is the most significant, the value is unsigned. -/
def Obligations.Be64DecodeIsBigEndian : Prop :=
  ∀ h : Half, (be64Decode h).toNat =
    (byteAt h 0).toNat * 2 ^ 56 + (byteAt h 1).toNat * 2 ^ 48 + (byteAt h 2).toNat * 2 ^ 40 +
    (byteAt h 3).toNat * 2 ^ 32 + (byteAt h 4).toNat * 2 ^ 24 + (byteAt h 5).toNat * 2 ^ 16 +
    (byteAt h 6).toNat * 2 ^ 8 + (byteAt h 7).toNat

/-- `be64_encode` (R85): byte `j` is `(c div 2^(8(7-j))) mod 256`, that is bits `63-8j` to `56-8j`. -/
def Obligations.Be64EncodeIsBigEndian : Prop :=
  ∀ (c : U64) (j : Fin 8),
    (byteAt (be64Encode c) j).toNat = c.toNat / 2 ^ (8 * (7 - j.val)) % 256 ∧
    byteAt (be64Encode c) j = c.extractLsb' (56 - 8 * j.val) 8

/-- The two are inverse (R86). -/
def Obligations.Be64DecodeEncodeInverse : Prop :=
  (∀ c : U64, be64Decode (be64Encode c) = c) ∧ (∀ h : Half, be64Encode (be64Decode h) = h)

/-- `add64` (R87): addition modulo 2^64, which is the increment by one repeated; the wrap is silent. -/
def Obligations.Add64WrapsSilently : Prop :=
  (∀ (c : U64) (i : Nat), (add64 c i).toNat = (c.toNat + i) % 2 ^ 64 ∧
    add64 c (i + 1) = add64 (add64 c i) 1 ∧ add64 c 0 = c ∧ add64 c (2 ^ 64) = c) ∧
  add64 0xFFFFFFFFFFFFFFFF#64 1 = 0#64 ∧ add64 0xFFFFFFFFFFFFFFFF#64 2 = 1#64

/-- Packing (R45): byte `j` is bits `127 - 8j` to `120 - 8j`, unpacking undoes it, and the low 64 bits of a packed IV are `CTR0`. -/
def Obligations.PackedIvHoldsTheCounter : Prop :=
  ∀ v : Block,
    (∀ j : Fin 16, (pack128 v).extractLsb' (120 - 8 * j.val) 8 = byteAt v j) ∧
    unpack128 (pack128 v) = v ∧ (pack128 v).extractLsb' 0 64 = (splitIv v).2

/-! ### Errors -/

/-- One legal response for each command: `exec` answers a next state with one response more, of the form R65 and R191 give, `ci` one
more, and what the host has still to send untouched (R29, R65, R191, R199, R210). -/
def Obligations.OneLegalResponsePerCommand : Prop :=
  ∀ (i : Instr) (s : State), ∃ t r, exec i s = .next t ∧ t.responses = s.responses ++ [r] ∧ r.Legal ∧
    t.ci = s.ci + 1 ∧ t.hostInput = s.hostInput

/-- After an error the output is empty and the engines are what they were (R200), for every command record, the reserved ones too, on
this hardware and on every build without a bound. -/
def Obligations.ErrorsChangeNoEngine : Prop :=
  (∀ (c : Command) (s t : State) (r : Response), runCommand exec c s = .next t → t.responses = s.responses ++ [r] →
    r.status ≠ .ok → r.out = [] ∧ t.cbc = s.cbc ∧ t.ctr = s.ctr) ∧
  (∀ (P : Params) (c : Command) (s t : State) (r : Response), P.bufCap = none → runCommand (buildExec P) c s = .next t →
    t.responses = s.responses ++ [r] → r.status ≠ .ok → r.out = [] ∧ t.cbc = s.cbc ∧ t.ctr = s.ctr)

/-- An error is not sticky (R201): the next command, whatever record the host sends, is answered as if the failed one had not been
issued, and leaves the engines as it would have. -/
def Obligations.ErrorsLeaveNoTrace : Prop :=
  ∀ (c d : Command) (s t : State) (r : Response), runCommand exec c s = .next t →
    answerOf s (runCommand exec c s) = some r → r.status ≠ .ok →
    answerOf t (runCommand exec d t) = answerOf s (runCommand exec d s) ∧
    ∃ u w, runCommand exec d t = .next u ∧ runCommand exec d s = .next w ∧ u.cbc = w.cbc ∧ u.ctr = w.ctr

/-- `NotConstructed` (R196) answers every command but `CONSTRUCT` on an engine that is not constructed, before anything else is
looked at, with the command byte as info; `CONSTRUCT` never raises it and constructs its own engine only. -/
def Obligations.NotConstructedComesFirst : Prop :=
  ∀ (i : Instr) (s : State),
    (i.func ≠ .construct → s.engine i.engine = none → exec i s = .next { s with
      responses := s.responses ++ [⟨.notConstructed, (encode i).op, []⟩], ci := s.ci + 1 }) ∧
    (i.func = .construct → ∀ r, answerOf s (exec i s) = some r → r.status ≠ .notConstructed) ∧
    (∀ t e, exec i s = .next t → e ≠ i.engine → t.engine e = s.engine e)

/-- Which error a command can raise on this hardware (R204): the crosses of the table. -/
def mayAnswer : Func → Engine → Status → Bool
  | _, _, .ok => true
  | .construct, _, .invalidKeyIvLength => true
  | .setKey, _, .invalidKeyIvLength => true
  | .setIv, _, .invalidKeyIvLength => true
  | .decrypt, .cbc, .malformedCiphertextLength => true
  | .decrypt, .cbc, .padLengthError => true
  | .setKey, _, .notConstructed => true
  | .setIv, _, .notConstructed => true
  | .encrypt, _, .notConstructed => true
  | .decrypt, _, .notConstructed => true
  | _, _, _ => false

/-- No command answers with a status the table of R204 rules out for it (its `-` entries, with `PAD_VALIDATE = false`), and every
cross is met: for each there are operands and a state on which the command answers so. -/
def Obligations.CommandsRaiseOnlyTheirErrors : Prop :=
  (∀ (i : Instr) (s : State) (r : Response), answerOf s (exec i s) = some r → mayAnswer i.func i.engine r.status = true) ∧
  (∀ (f : Func) (e : Engine) (st : Status), mayAnswer f e st = true →
    ∃ (i : Instr) (s : State) (r : Response), i.func = f ∧ i.engine = e ∧ answerOf s (exec i s) = some r ∧ r.status = st)

/-- The numbers of R191: the seven status bytes, distinct and below `0x07`, and the status and info byte of each cause, those of a
ciphertext length and of a command byte for every length and every byte. -/
def Obligations.StatusAndInfoCodesFollowTheTable : Prop :=
  [Status.ok, .invalidKeyIvLength, .malformedCiphertextLength, .padLengthError, .padInconsistentError, .notConstructed,
    .illegalCommand].map Status.code = [0x00, 0x01, 0x02, 0x03, 0x04, 0x05, 0x06] ∧
  (∀ st st' : Status, st.code.toNat < 7 ∧ (st.code = st'.code → st = st')) ∧
  [CommandError.badKeyLength, .badIvLength, .padZero, .padTooLong, .padEmptyBuffer, .padOverBlock, .padMismatch].map
      (fun e => (e.status.code, e.info)) =
    [(0x01, 0x00), (0x01, 0x01), (0x03, 0x00), (0x03, 0x01), (0x03, 0x02), (0x04, 0x00), (0x04, 0x01)] ∧
  (∀ n : Nat, (CommandError.badCiphertextLength n).status.code = 0x02 ∧
    (CommandError.badCiphertextLength n).info.toNat = n % 16) ∧
  (∀ op : Byte, (CommandError.notConstructed op).status.code = 0x05 ∧ (CommandError.notConstructed op).info = op ∧
    (CommandError.illegalCommand op).status.code = 0x06 ∧ (CommandError.illegalCommand op).info = op)

/-! ### Isolation and who writes what -/

/-- The response is a function of the command and its own engine's configuration (R32, R134, R163): two states that agree there give
the same response, whatever the other engine, earlier commands and responses. -/
def Obligations.ResponseDependsOnOwnEngineOnly : Prop :=
  ∀ (i : Instr) (s t : State), s.engine i.engine = t.engine i.engine →
    answerOf s (exec i s) = answerOf t (exec i t)

/-- There is no hidden state (R33, R232): a step from two states with the same responses, the same engines and the same events still to
come gives two such states, whatever `ci` and the record of requests hold. -/
def Obligations.StepReadsOnlyTheObservation : Prop :=
  ∀ s t s' t' : State, SameObservation s t → s.hostInput = t.hostInput → step s = .next s' → step t = .next t' →
    SameObservation s' t' ∧ s'.hostInput = t'.hostInput

/-- A data command writes no engine (R131, R165), so the same command again is answered alike (R134, R162). -/
def Obligations.DataCommandsWriteNoEngine : Prop :=
  ∀ (i : Instr) (s t : State), i.func = .encrypt ∨ i.func = .decrypt → exec i s = .next t →
    t.cbc = s.cbc ∧ t.ctr = s.ctr ∧ answerOf t (exec i t) = answerOf s (exec i s)

/-- Who writes a key and who an IV (R21, R22, R109): only `CONSTRUCT` and `SET_KEY` of the engine change its key, only `CONSTRUCT` and
`SET_IV` of the engine its IV. -/
def Obligations.KeyAndIvHaveTheirWriters : Prop :=
  ∀ (i : Instr) (s t : State) (e : Engine) (old new : EngineInstance), exec i s = .next t →
    s.engine e = some old → t.engine e = some new →
    (new.key ≠ old.key → i.engine = e ∧ (i.func = .construct ∨ i.func = .setKey)) ∧
    (new.iv ≠ old.iv → i.engine = e ∧ (i.func = .construct ∨ i.func = .setIv))

/-- `CONSTRUCTED[e]` (R25, R222): no command sets it back to 0, and only a successful `e.CONSTRUCT` sets it to 1. -/
def Obligations.ConstructedChangesOnlyByConstruct : Prop :=
  ∀ (i : Instr) (s t : State) (e : Engine), exec i s = .next t →
    (s.constructed e = true → t.constructed e = true) ∧
    (s.constructed e = false → (t.constructed e = true ↔
      i.engine = e ∧ i.func = .construct ∧ ∃ r, answerOf s (exec i s) = some r ∧ r.status = .ok))

/-- Requests to the primitive (R132, R161, R229), as the model's record of them has them (log 5): which and how many each command makes.
`init` once for a successful `CONSTRUCT` and once for a successful `SET_KEY` and for nothing else; the block requests of a data command,
all under the key its engine holds when the command begins; none for a command refused for its operand's length or its engine's
state. -/
def Obligations.PrimitiveRequestCounts : Prop :=
  ∀ (a : Bytes) (s : State) (inst : EngineInstance),
    (s.cbc = some inst → ∃ t, ∃ bs : List Block, exec (.cbcEncrypt a) s = .next t ∧
      t.requests = s.requests ++ bs.map (.encryptBlock inst.key) ∧ bs.length = a.length / 16 + 1) ∧
    (s.cbc = some inst → 0 < a.length → a.length % 16 = 0 → ∃ t, ∃ bs : List Block, exec (.cbcDecrypt a) s = .next t ∧
      t.requests = s.requests ++ bs.map (.decryptBlock inst.key) ∧ bs.length = a.length / 16) ∧
    (¬ (0 < a.length ∧ a.length % 16 = 0) → ∃ t, exec (.cbcDecrypt a) s = .next t ∧ t.requests = s.requests) ∧
    (s.ctr = some inst → ∃ t u, ∃ bs : List Block, exec (.ctrEncrypt a) s = .next t ∧ exec (.ctrDecrypt a) s = .next u ∧
      t.requests = s.requests ++ bs.map (.encryptBlock inst.key) ∧ u.requests = t.requests ∧
      bs.length = (a.length + 15) / 16) ∧
    (∀ i : Instr, i.func ≠ .construct → s.engine i.engine = none → ∃ t, exec i s = .next t ∧ t.requests = s.requests) ∧
    (∀ k v : Bytes, ∃ t u, exec (.cbcConstruct k v) s = .next t ∧ exec (.ctrConstruct k v) s = .next u ∧
      u.requests = t.requests ∧
      (∀ hk : k.length = 16, v.length = 16 → t.requests = s.requests ++ [.init ⟨k, hk⟩]) ∧
      (k.length ≠ 16 ∨ v.length ≠ 16 → t.requests = s.requests)) ∧
    (∀ i : Instr, i.func = .setKey → s.engine i.engine = some inst → ∃ t, exec i s = .next t ∧
      (∀ hk : i.operandA.length = 16, t.requests = s.requests ++ [.init ⟨i.operandA, hk⟩]) ∧
      (i.operandA.length ≠ 16 → t.requests = s.requests)) ∧
    (∀ i : Instr, i.func = .setIv → ∃ t, exec i s = .next t ∧ t.requests = s.requests)

/-! ### Builds -/

/-- A build with a finite `BUF_CAP` (R52): a command with an operand longer than it, or a `CBC.ENCRYPT` whose padded length is over
`BUF_CAP + 16`, is refused, and any other is answered as without a bound. The order of this
check before every error of the command is the model's (log 8). -/
def Obligations.BoundedBuildRefusesLongOperands : Prop :=
  ∀ (P : Params) (cap : Nat) (i : Instr) (s : State), P.bufCap = some cap →
    (i.wellFormed (some cap) = false → ∃ n, buildExec P i s = .refused (.overBufCap cap n)) ∧
    (i.wellFormed (some cap) = true → buildExec P i s = buildExec { P with bufCap := none } i s) ∧
    (i.operandA.length ≤ cap → i.operandB.length ≤ cap → i.wellFormed (some cap) = true) ∧
    (cap < i.operandA.length ∨ cap < i.operandB.length → i.wellFormed (some cap) = false) ∧
    (∀ data, i = .cbcEncrypt data → cap + 16 < data.length + (16 - data.length % 16) → i.wellFormed (some cap) = false)
end

