-- ==== Sys2Proof/Laws/Operands.lean ====
section
/-! SUPPORT. What the operand operations and the shared utilities give: lengths, the pieces of chunking and of the XOR. -/

namespace Sys2Proof

/-- Two sequences of `n` bytes with the same bytes are equal. -/
theorem BytesN.eq_of_toList {n : Nat} {a b : BytesN n} (h : a.toList = b.toList) : a = b := by
  cases a; cases b; simpa using h

namespace Machine

/-! ### Buffers -/

@[simp] theorem length_memRead (buf : Bytes) (i n : Nat) : (memRead buf i n).length = min n (buf.length - i) := by
  simp [memRead]

/-- Byte `j` is the entry at index `j`. -/
theorem getElem?_toList {n : Nat} (v : BytesN n) (j : Fin n) : v.toList[j.val]? = some (byteAt v j) := by
  rw [List.getElem?_eq_getElem]; rfl

/-- Two sequences of the same length with the same bytes are equal. -/
theorem eq_of_byteAt {n : Nat} {a b : BytesN n} (h : ∀ j, byteAt a j = byteAt b j) : a = b := by
  apply BytesN.eq_of_toList
  apply List.ext_getElem?
  intro j
  by_cases hj : j < n
  · rw [getElem?_toList a ⟨j, hj⟩, getElem?_toList b ⟨j, hj⟩, h]
  · rw [List.getElem?_eq_none (by rw [a.length_eq]; omega), List.getElem?_eq_none (by rw [b.length_eq]; omega)]

/-- Appending is the write at the end (00_scope.md section 6). -/
@[simp] theorem appendOut_eq (out v : Bytes) : appendOut out v = out ++ v := by
  simp [appendOut, memWrite]

/-- A list of the right length is taken whole. -/
theorem asBlock_of_length {a : Bytes} (h : a.length = 16) : asBlock a = some ⟨a, h⟩ := by simp [asBlock, h]

/-- An operand of any other length is no key and no IV. -/
theorem asBlock_of_length_ne {a : Bytes} (h : a.length ≠ 16) : asBlock a = none := by simp [asBlock, h]

/-! ### Chunking -/

theorem length_block (s : Bytes) (k : Nat) : (block s k).length = min 16 (s.length - 16 * k) := by
  simp [block]

/-- A block inside the whole blocks of a buffer has 16 bytes (R83). -/
theorem length_block_full {s : Bytes} {k : Nat} (h : k < nblocksExact s.length) : (block s k).length = 16 := by
  rw [length_block]; simp only [nblocksExact] at h; omega

/-- `block(s, k)` as a slice. -/
theorem block_eq (s : Bytes) (k : Nat) : block s k = (s.drop (16 * k)).take 16 := by
  simp only [block, memRead]
  rw [← List.length_drop, List.take_eq_take_iff]
  omega

theorem block_zero_append {b : Bytes} (hb : b.length = 16) (s : Bytes) : block (b ++ s) 0 = b := by
  rw [block_eq]; simp [hb]

theorem block_succ_append {b : Bytes} (hb : b.length = 16) (s : Bytes) (k : Nat) :
    block (b ++ s) (k + 1) = block s k := by
  rw [block_eq, block_eq, List.drop_append]
  have h1 : b.drop (16 * (k + 1)) = [] := List.drop_eq_nil_of_le (by omega)
  rw [h1, hb]; simp [show 16 * (k + 1) - 16 = 16 * k by omega]

@[simp] theorem chunks_nil : chunks [] = [] := rfl

/-- The chunker emits a leading block of 16 bytes and then the chunks of the rest (R121). -/
theorem chunks_append (b : Block) (s : Bytes) : chunks (b.toList ++ s) = b :: chunks s := by
  have hn : nblocksExact (b.toList ++ s).length = nblocksExact s.length + 1 := by
    simp [nblocksExact, b.length_eq]
  unfold chunks
  rw [hn, List.range_succ_eq_map, List.filterMap_cons, block_zero_append b.length_eq,
    asBlock_of_length b.length_eq, List.filterMap_map]
  show b :: _ = _
  congr 1
  apply List.filterMap_congr
  intro k _
  simp [block_succ_append b.length_eq]

/-- Every chunk has 16 bytes: none is dropped (R121). -/
theorem length_chunks (s : Bytes) : (chunks s).length = nblocksExact s.length := by
  unfold chunks
  rw [List.length_filterMap_eq_countP]
  rw [List.countP_eq_length.mpr]
  · simp
  · intro k hk
    simp [asBlock_of_length (length_block_full (List.mem_range.mp hk))]

@[simp] theorem concatBlocks_nil : concatBlocks [] = [] := rfl
@[simp] theorem concatBlocks_cons (b : Block) (bs : List Block) :
    concatBlocks (b :: bs) = b.toList ++ concatBlocks bs := rfl
@[simp] theorem concatBlocks_append (as bs : List Block) :
    concatBlocks (as ++ bs) = concatBlocks as ++ concatBlocks bs := by simp [concatBlocks]

theorem length_concatBlocks (bs : List Block) : (concatBlocks bs).length = 16 * bs.length := by
  induction bs with
  | nil => rfl
  | cons b bs ih => simp [b.length_eq, ih]; omega

/-- Chunking the concatenation of blocks gives the blocks back. -/
theorem chunks_concatBlocks (bs : List Block) : chunks (concatBlocks bs) = bs := by
  induction bs with
  | nil => rfl
  | cons b bs ih => rw [concatBlocks_cons, chunks_append, ih]

/-- A buffer of whole blocks is the concatenation of its chunks (R83). -/
theorem concatBlocks_chunks (n : Nat) : ∀ s : Bytes, s.length = 16 * n → concatBlocks (chunks s) = s := by
  induction n with
  | zero => intro s h; rw [List.length_eq_zero_iff.mp h]; rfl
  | succ n ih =>
    intro s h
    have hb : (s.take 16).length = 16 := by simp; omega
    have hs : s = (⟨s.take 16, hb⟩ : Block).toList ++ s.drop 16 := (List.take_append_drop 16 s).symm
    conv => lhs; rw [hs]
    rw [chunks_append, concatBlocks_cons, ih (s.drop 16) (by simp; omega)]
    exact hs.symm

/-! ### XOR -/

@[simp] theorem toList_xor16 (a b : Block) :
    (xor16 a b).toList = List.zipWith (· ^^^ ·) a.toList b.toList := rfl

@[simp] theorem length_xorn (a : Bytes) (b : Block) : (xorn a b).length = min a.length 16 := by
  simp [xorn, b.length_eq]

theorem length_xorn_block (s : Bytes) (k : Nat) (b : Block) : (xorn (block s k) b).length = (block s k).length := by
  rw [length_xorn, length_block]; omega

theorem zipWith_xor_cancel : ∀ (a b : Bytes), a.length ≤ b.length →
    List.zipWith (· ^^^ ·) (List.zipWith (· ^^^ ·) a b) b = a
  | [], _, _ => rfl
  | x :: a, [], h => by simp at h
  | x :: a, y :: b, h => by
    simp only [List.zipWith_cons_cons, zipWith_xor_cancel a b (by simpa using h), BitVec.xor_assoc, BitVec.xor_self,
      BitVec.xor_zero]

/-- XOR with the same block twice gives the block back. -/
theorem xor16_cancel (a b : Block) : xor16 (xor16 a b) b = a :=
  BytesN.eq_of_toList (zipWith_xor_cancel _ _ (by rw [a.length_eq, b.length_eq]))

/-! ### Counter -/

@[simp] theorem toNat_add64 (c : U64) (i : Nat) : (add64 c i).toNat = (c.toNat + i) % 2 ^ 64 := by
  simp [add64]

@[simp] theorem toList_counterBlock (nonce : Half) (c : U64) :
    (counterBlock nonce c).toList = nonce.toList ++ (be64Encode c).toList := rfl

end Machine
end Sys2Proof
end

