-- ==== Sys2Proof/Laws/State.lean ====
section
/-! SUPPORT. What each state operation does to each field. Later proofs cite these and unfold no record update. -/

namespace Sys2Proof.Machine

variable (s : State) (r : Response) (out : Bytes) (e : CommandError) (rs : List PrimRequest) (inst : EngineInstance)

@[simp] theorem deliver_cbc : (deliver r s).cbc = s.cbc := rfl
@[simp] theorem deliver_ctr : (deliver r s).ctr = s.ctr := rfl
@[simp] theorem deliver_ci : (deliver r s).ci = s.ci + 1 := rfl
@[simp] theorem deliver_hostInput : (deliver r s).hostInput = s.hostInput := rfl
@[simp] theorem deliver_responses : (deliver r s).responses = s.responses ++ [r] := rfl
@[simp] theorem deliver_requests : (deliver r s).requests = s.requests := rfl
@[simp] theorem deliver_engine (x : Engine) : (deliver r s).engine x = s.engine x := by cases x <;> rfl

@[simp] theorem respondOk_eq : respondOk out s = deliver (okResponse out) s := rfl
@[simp] theorem raise_eq : raise e s = deliver (errorResponse e) s := rfl

@[simp] theorem sendRequests_cbc : (sendRequests rs s).cbc = s.cbc := rfl
@[simp] theorem sendRequests_ctr : (sendRequests rs s).ctr = s.ctr := rfl
@[simp] theorem sendRequests_ci : (sendRequests rs s).ci = s.ci := rfl
@[simp] theorem sendRequests_hostInput : (sendRequests rs s).hostInput = s.hostInput := rfl
@[simp] theorem sendRequests_responses : (sendRequests rs s).responses = s.responses := rfl
@[simp] theorem sendRequests_requests : (sendRequests rs s).requests = s.requests ++ rs := rfl
@[simp] theorem sendRequests_engine (x : Engine) : (sendRequests rs s).engine x = s.engine x := by cases x <;> rfl
@[simp] theorem sendRequests_nil : sendRequests [] s = s := by simp [sendRequests]

@[simp] theorem setEngine_cbc_cbc : (s.setEngine .cbc inst).cbc = some inst := rfl
@[simp] theorem setEngine_cbc_ctr : (s.setEngine .cbc inst).ctr = s.ctr := rfl
@[simp] theorem setEngine_ctr_cbc : (s.setEngine .ctr inst).cbc = s.cbc := rfl
@[simp] theorem setEngine_ctr_ctr : (s.setEngine .ctr inst).ctr = some inst := rfl
@[simp] theorem setEngine_ci (x : Engine) : (s.setEngine x inst).ci = s.ci := by cases x <;> rfl
@[simp] theorem setEngine_hostInput (x : Engine) : (s.setEngine x inst).hostInput = s.hostInput := by cases x <;> rfl
@[simp] theorem setEngine_responses (x : Engine) : (s.setEngine x inst).responses = s.responses := by cases x <;> rfl
@[simp] theorem setEngine_requests (x : Engine) : (s.setEngine x inst).requests = s.requests := by cases x <;> rfl
@[simp] theorem setEngine_engine_same (x : Engine) : (s.setEngine x inst).engine x = some inst := by cases x <;> rfl

/-- Writing one engine leaves the other as it was (R32). -/
theorem setEngine_engine_other {x y : Engine} (h : y ≠ x) : (s.setEngine x inst).engine y = s.engine y := by
  cases x <;> cases y <;> simp_all [State.engine]

@[simp] theorem engine_cbc : s.engine .cbc = s.cbc := rfl
@[simp] theorem engine_ctr : s.engine .ctr = s.ctr := rfl

@[simp] theorem applyReset_cbc : (applyReset s).cbc = none := rfl
@[simp] theorem applyReset_ctr : (applyReset s).ctr = none := rfl
@[simp] theorem applyReset_ci : (applyReset s).ci = 0 := rfl
@[simp] theorem applyReset_hostInput : (applyReset s).hostInput = s.hostInput := rfl
@[simp] theorem applyReset_responses : (applyReset s).responses = s.responses := rfl
@[simp] theorem applyReset_requests : (applyReset s).requests = s.requests := rfl

end Sys2Proof.Machine
end

