-- ==== Sys2Proof/Laws/Ops.lean ====
section
/-! SUPPORT. What the shared checks answer, and what one accepted event does. -/

namespace Sys2Proof.Machine

@[simp] theorem hardware_bufCap : Config.hardware.bufCap = none := rfl
@[simp] theorem hardware_padValidate : Config.hardware.padValidate = false := rfl

@[simp] theorem fitsCap_none (n : Nat) : fitsCap none n = true := rfl
@[simp] theorem fitsPadded_none (n : Nat) : fitsPadded none n = true := rfl

/-- An unbounded build refuses nothing (R7). -/
theorem withinCap_unbounded {P : Params} (h : P.bufCap = none) (ok : Bool) (n : Nat) (r : Result) :
    withinCap P ok n r = r := by simp [withinCap, h]

@[simp] theorem withinCap_hardware (ok : Bool) (n : Nat) (r : Result) : withinCap Config.hardware ok n r = r :=
  withinCap_unbounded rfl ok n r

theorem withInstance_none {e : Engine} {f : Func} {s : State} {run : EngineInstance → Result} (h : s.engine e = none) :
    withInstance e f s run = .next (deliver (errorResponse (.notConstructed (opByte e f))) s) := by
  simp [withInstance, h]

theorem withInstance_some {e : Engine} {f : Func} {s : State} {run : EngineInstance → Result} {inst : EngineInstance}
    (h : s.engine e = some inst) : withInstance e f s run = run inst := by
  simp [withInstance, h]

/-- The hardware is one of the builds. -/
theorem exec_eq_buildExec_arm (i : Instr) (s : State) : exec i s = buildExec Config.hardware i s := by
  cases i <;> rfl

/-- With no event pending the step waits. -/
theorem step_of_idle {s : State} (h : s.hostInput = []) : step s = .next s := by simp [step, acceptNext, h]

/-- A command event runs the command. -/
theorem step_of_command {s : State} {c : Command} {rest : List HostEvent} (h : s.hostInput = .command c :: rest) :
    step s = runCommand exec c { s with hostInput := rest } := by simp [step, acceptNext, h]

/-- A reset event resets. -/
theorem step_of_reset {s : State} {c : Option Command} {rest : List HostEvent} (h : s.hostInput = .reset c :: rest) :
    step s = .next (applyReset { s with hostInput := rest }) := by simp [step, acceptNext, h]

end Sys2Proof.Machine
end

