-- ==== Sys2Proof/Laws/Cbc.lean ====
section
/-! SUPPORT. The units of the CBC engine: lengths, the loops as the chain functions, padding and its removal. -/

namespace Sys2Proof.Machine

/-! ### The padder -/

theorem padLength_pos (n : Nat) : 0 < padLength n := by simp only [padLength]; omega

theorem padLength_le (n : Nat) : padLength n ≤ 16 := by simp only [padLength]; omega

theorem length_pad (m : Bytes) : (pad m).length = m.length + padLength m.length := by simp [pad]

/-- `|pad(m)| = 16 * (n div 16 + 1)` (R120). -/
theorem length_pad_eq (m : Bytes) : (pad m).length = 16 * (m.length / 16 + 1) := by
  rw [length_pad, padLength]; omega

/-- The pad byte, read as a number, is the pad length. -/
theorem toNat_padByte (n : Nat) : (BitVec.ofNat 8 (padLength n)).toNat = padLength n := by
  have := padLength_le n
  rw [BitVec.toNat_ofNat, Nat.mod_eq_of_lt (by omega)]

theorem getLast?_pad (m : Bytes) : (pad m).getLast? = some (BitVec.ofNat 8 (padLength m.length)) := by
  have := padLength_pos m.length
  rw [pad, List.getLast?_append, List.getLast?_replicate, if_neg (by omega)]
  rfl

/-! ### The loops are the chains -/

theorem foldl_cbcEncBlock (P : Params) (k : Key) (bs : List Block) (r : CbcRegs) :
    (bs.foldl (cbcEncBlock P k) r).out = r.out ++ concatBlocks (cbcChainEnc (P.E k) r.cv bs) ∧
    (bs.foldl (cbcEncBlock P k) r).reqs =
      r.reqs ++ (cbcChainInputs (P.E k) r.cv bs).map (.encryptBlock k) := by
  induction bs generalizing r with
  | nil => simp [cbcChainEnc, cbcChainInputs]
  | cons b bs ih =>
    rw [List.foldl_cons]
    constructor
    · rw [(ih _).1]; simp [cbcEncBlock, cbcChainEnc]
    · rw [(ih _).2]; simp [cbcEncBlock, cbcChainInputs]

theorem foldl_cbcDecBlock (P : Params) (k : Key) (bs : List Block) (r : CbcRegs) :
    (bs.foldl (cbcDecBlock P k) r).out = r.out ++ concatBlocks (cbcChainDec (P.D k) r.cv bs) ∧
    (bs.foldl (cbcDecBlock P k) r).reqs = r.reqs ++ bs.map (.decryptBlock k) := by
  induction bs generalizing r with
  | nil => simp [cbcChainDec]
  | cons b bs ih =>
    rw [List.foldl_cons]
    constructor
    · rw [(ih _).1]; simp [cbcDecBlock, cbcChainDec]
    · rw [(ih _).2]; simp [cbcDecBlock]

@[simp] theorem length_cbcChainEnc (enc : Block → Block) (v : Block) (bs : List Block) :
    (cbcChainEnc enc v bs).length = bs.length := by
  induction bs generalizing v with
  | nil => rfl
  | cons b bs ih => simp [cbcChainEnc, ih]

@[simp] theorem length_cbcChainInputs (enc : Block → Block) (v : Block) (bs : List Block) :
    (cbcChainInputs enc v bs).length = bs.length := by
  induction bs generalizing v with
  | nil => rfl
  | cons b bs ih => simp [cbcChainInputs, ih]

@[simp] theorem length_cbcChainDec (dec : Block → Block) (v : Block) (bs : List Block) :
    (cbcChainDec dec v bs).length = bs.length := by
  induction bs generalizing v with
  | nil => rfl
  | cons b bs ih => simp [cbcChainDec, ih]

/-! ### The unpadder -/

/-- An error of the unpadder is one of the pad errors, and carries no byte of the buffer (R137). -/
theorem unpad_error {validate : Bool} {t : Bytes} {e : CommandError} (h : unpad validate t = .error e) :
    e = .padEmptyBuffer ∧ t = [] ∨ e = .padZero ∨ e = .padTooLong ∨ e = .padOverBlock ∨ e = .padMismatch := by
  unfold unpad at h
  split at h
  · rename_i h'; injection h with h; exact .inl ⟨h.symm, by simpa using h'⟩
  · simp only at h
    split at h
    · injection h with h; simp [← h]
    split at h
    · injection h with h; simp [← h]
    split at h
    · injection h with h; simp [← h]
    split at h
    · injection h with h; simp [← h]
    · simp at h

/-- Everything the trusting unpadder can answer on a buffer that ends in `p` (R126). -/
theorem unpad_trusting {t : Bytes} {p : Byte} (h : t.getLast? = some p) :
    unpad false t =
      if p.toNat = 0 then .error .padZero
      else if t.length < p.toNat then .error .padTooLong
      else .ok (t.take (t.length - p.toNat)) := by
  simp [unpad, h]

/-- Everything the hardened unpadder can answer on a buffer that ends in `p` (R129). -/
theorem unpad_hardened {t : Bytes} {p : Byte} (h : t.getLast? = some p) :
    unpad true t =
      if p.toNat = 0 then .error .padZero
      else if t.length < p.toNat then .error .padTooLong
      else if 16 < p.toNat then .error .padOverBlock
      else if (t.drop (t.length - p.toNat)).any (fun x => x != p) then .error .padMismatch
      else .ok (t.take (t.length - p.toNat)) := by
  simp [unpad, h]

/-- What the decrypt loop leaves in `PT` has the length of the ciphertext. -/
theorem length_decrypted (P : Params) (k : Key) (v : Block) {a : Bytes} (h : a.length % 16 = 0) :
    ((chunks a).foldl (cbcDecBlock P k) ⟨v, [], []⟩).out.length = a.length := by
  rw [(foldl_cbcDecBlock P k _ _).1]
  simp only [List.nil_append, length_concatBlocks, length_cbcChainDec, length_chunks, nblocksExact]
  omega

end Sys2Proof.Machine
end

