-- ==== Sys2Proof/Laws/Ctr.lean ====
section
/-! SUPPORT. The CTR loop: what it has put out and asked after any number of turns. -/

namespace Sys2Proof.Machine

/-- The counter block of block `i` (R151). -/
def counterBlockAt (v : Block) (i : Nat) : Block := counterBlock (splitIv v).1 (add64 (splitIv v).2 i)

theorem foldl_ctrBlock (P : Params) (k : Key) (v : Block) (a : Bytes) (n : Nat) :
    (List.range n).foldl (ctrBlock P k (splitIv v).1 (splitIv v).2 a) ⟨[], []⟩ =
      ⟨(List.range n).flatMap fun i => xorn (block a i) (P.E k (counterBlockAt v i)),
       (List.range n).map fun i => .encryptBlock k (counterBlockAt v i)⟩ := by
  induction n with
  | zero => rfl
  | succ n ih =>
    rw [List.range_succ, List.foldl_append, ih]
    simp [ctrBlock, counterBlockAt]

/-- `OUT` and the requests of the loop of R155. -/
theorem ctrLoop_eq (P : Params) (k : Key) (v : Block) (a : Bytes) :
    ctrLoop P k v a =
      ⟨(List.range (nblocksCeil a.length)).flatMap fun i => xorn (block a i) (P.E k (counterBlockAt v i)),
       (List.range (nblocksCeil a.length)).map fun i => .encryptBlock k (counterBlockAt v i)⟩ :=
  foldl_ctrBlock P k v a _

@[simp] theorem length_ctrTransform (enc : Block → Block) (v : Block) (a : Bytes) :
    (ctrTransform enc v a).length = a.length := by simp [ctrTransform]

end Sys2Proof.Machine
end

