-- ==== Sys2Proof/Laws/Decode.lean ====
section
/-! SUPPORT. The command byte of an engine and an operation decodes to them; the record of an instruction to it. -/

namespace Sys2Proof

theorem decodeOp_opByte (e : Engine) (f : Func) : decodeOp (opByte e f) = .ok (e, f) := by
  cases e <;> cases f <;> rfl

/-- Putting an instruction together from its engine, operation and operands gives it back. -/
theorem assemble_parts (i : Instr) : assemble i.engine i.func i.operandA i.operandB = i := by cases i <;> rfl

theorem decode_of_decodeOp {c : Command} {e : Engine} {f : Func} (h : decodeOp c.op = .ok (e, f)) :
    decode c = .ok (assemble e f c.a c.b) := by simp [decode, h]

/-- The decode of a record, from the decode of its command byte. -/
theorem decode_record {op : Byte} {e : Engine} {f : Func} (h : decodeOp op = .ok (e, f)) (a b : Bytes) :
    decode ⟨op, a, b⟩ = .ok (assemble e f a b) := decode_of_decodeOp h

/-- A K1 instruction has no operand `B`. -/
theorem operandB_of_k1 {i : Instr} (h : i.func.format = .k1) : i.operandB = [] := by
  cases i <;> first | rfl | simp [Instr.func, Func.format] at h

theorem encode_canonical (i : Instr) : (encode i).canonical = true := by
  have h : decodeOp (encode i).op = .ok (i.engine, i.func) := decodeOp_opByte _ _
  rw [Command.canonical, h]
  cases hf : i.func.format with
  | k2 => simp [hf]
  | k1 => simp [encode, operandB_of_k1 hf]

end Sys2Proof
end

