-- ==== Sys2Proof/Laws/Dispatch.lean ====
section
/-! SUPPORT. Everything a command can do, said once: it delivers one legal response and either leaves both engines as they
were or, answering `OK`, writes its own. -/

namespace Sys2Proof.Machine

/-- The engines after a command: as before, or its own engine written by a configuration command that answered `OK`. -/
inductive EnginesAfter (i : Instr) (s : State) : State → Response → Prop where
  | kept (r : Response) (hr : r.status = .ok → i.func ≠ .construct) : EnginesAfter i s s r
  | constructed (k : Key) (v : Block) (h : i.func = .construct) :
      EnginesAfter i s (s.setEngine i.engine ⟨k, v⟩) (okResponse [])
  | rekeyed (inst : EngineInstance) (k : Key) (h : i.func = .setKey) (hs : s.engine i.engine = some inst) :
      EnginesAfter i s (s.setEngine i.engine ⟨k, inst.iv⟩) (okResponse [])
  | newIv (inst : EngineInstance) (v : Block) (h : i.func = .setIv) (hs : s.engine i.engine = some inst) :
      EnginesAfter i s (s.setEngine i.engine ⟨inst.key, v⟩) (okResponse [])

theorem okResponse_legal (out : Bytes) : (okResponse out).Legal := rfl

theorem notConstructed_legal (e : Engine) {f : Func} (h : f ≠ .construct) :
    (errorResponse (.notConstructed (opByte e f))).Legal := ⟨rfl, e, f, h, rfl⟩

/-- The shape of a result: what `buildExec` can answer on a build without a bound. -/
def Shape (i : Instr) (s : State) (res : Result) : Prop :=
  ∃ s' r rs, EnginesAfter i s s' r ∧ r.Legal ∧ res = .next (deliver r (sendRequests rs s'))

theorem Shape.error {i : Instr} {s : State} {e : CommandError} (rs : List PrimRequest) (h : (errorResponse e).Legal)
    (he : e.status ≠ .ok) : Shape i s (.next (deliver (errorResponse e) (sendRequests rs s))) :=
  ⟨s, _, rs, .kept _ fun h' => absurd h' he, h, rfl⟩

theorem Shape.error' {i : Instr} {s : State} {e : CommandError} (h : (errorResponse e).Legal)
    (he : e.status ≠ .ok) : Shape i s (.next (deliver (errorResponse e) s)) := by
  have := Shape.error (i := i) (s := s) [] h he
  simpa using this

theorem construct_shape {P : Params} (h : P.bufCap = none) {e : Engine} {a b : Bytes} {s : State} {i : Instr}
    (hi : i.engine = e) (hf : i.func = .construct) : Shape i s (construct P e a b s) := by
  rw [construct, withinCap_unbounded h]
  split
  · exact Shape.error' ⟨rfl, .inl rfl⟩ (by decide)
  · split
    · exact Shape.error' ⟨rfl, .inr rfl⟩ (by decide)
    · subst hi; exact ⟨_, _, _, .constructed _ _ hf, okResponse_legal [], rfl⟩

theorem setKey_shape {P : Params} (h : P.bufCap = none) {e : Engine} {a : Bytes} {s : State} {i : Instr}
    (hi : i.engine = e) (hf : i.func = .setKey) : Shape i s (setKey P e a s) := by
  rw [setKey, withinCap_unbounded h]
  cases hs : s.engine e with
  | none => rw [withInstance_none hs]; exact Shape.error' (notConstructed_legal e (by decide)) (by simp [CommandError.status])
  | some inst =>
    rw [withInstance_some hs]
    split
    · exact Shape.error' ⟨rfl, .inl rfl⟩ (by decide)
    · subst hi; exact ⟨_, _, _, .rekeyed inst _ hf hs, okResponse_legal [], rfl⟩

theorem setIv_shape {P : Params} (h : P.bufCap = none) {e : Engine} {a : Bytes} {s : State} {i : Instr}
    (hi : i.engine = e) (hf : i.func = .setIv) : Shape i s (setIv P e a s) := by
  rw [setIv, withinCap_unbounded h]
  cases hs : s.engine e with
  | none => rw [withInstance_none hs]; exact Shape.error' (notConstructed_legal e (by decide)) (by simp [CommandError.status])
  | some inst =>
    rw [withInstance_some hs]
    split
    · exact Shape.error' ⟨rfl, .inr rfl⟩ (by decide)
    · rename_i v _; subst hi; exact ⟨_, _, [], .newIv inst v hf hs, okResponse_legal [], by simp⟩

theorem cbcEncrypt_shape {P : Params} (h : P.bufCap = none) {a : Bytes} {s : State} {i : Instr}
    (hf : i.func ≠ .construct) : Shape i s (cbcEncrypt P a s) := by
  rw [cbcEncrypt, withinCap_unbounded h]
  cases hs : s.engine .cbc with
  | none => rw [withInstance_none hs]; exact Shape.error' (notConstructed_legal _ (by decide)) (by decide)
  | some inst =>
    rw [withInstance_some hs]
    exact ⟨_, _, _, .kept _ fun _ => hf, okResponse_legal _, rfl⟩

theorem cbcDecrypt_shape {P : Params} (h : P.bufCap = none) {a : Bytes} {s : State} {i : Instr}
    (hf : i.func ≠ .construct) : Shape i s (cbcDecrypt P a s) := by
  rw [cbcDecrypt, withinCap_unbounded h]
  cases hs : s.engine .cbc with
  | none => rw [withInstance_none hs]; exact Shape.error' (notConstructed_legal _ (by decide)) (by decide)
  | some inst =>
    rw [withInstance_some hs]
    split
    · rename_i hl
      simp only [isCiphertextLength, Bool.and_eq_true, decide_eq_true_eq] at hl
      have hlen := length_decrypted P inst.key inst.iv hl.2
      dsimp only
      split
      · rename_i e he
        obtain ⟨-, h0⟩ | h1 | h1 | h1 | h1 := unpad_error he
        · rw [h0] at hlen; simp at hlen; omega
        all_goals subst h1; exact Shape.error _ ⟨rfl, by decide⟩ (by decide)
      · exact ⟨_, _, _, .kept _ fun _ => hf, okResponse_legal _, rfl⟩
    · refine Shape.error' ⟨rfl, ?_⟩ (by simp [CommandError.status])
      show (BitVec.ofNat 8 (a.length % 16)).toNat < 16
      rw [BitVec.toNat_ofNat]; omega

theorem ctrData_shape {P : Params} (h : P.bufCap = none) {f : Func} {a : Bytes} {s : State} {i : Instr}
    (hf : f ≠ .construct) (hi : i.func ≠ .construct) : Shape i s (ctrData P f a s) := by
  rw [ctrData, withinCap_unbounded h]
  cases hs : s.engine .ctr with
  | none => rw [withInstance_none hs]; exact Shape.error' (notConstructed_legal _ hf) (by simp [CommandError.status])
  | some inst =>
    rw [withInstance_some hs]
    exact ⟨_, _, _, .kept _ fun _ => hi, okResponse_legal _, rfl⟩

/-- Everything a command of a build without a bound can do. -/
theorem buildExec_shape {P : Params} (h : P.bufCap = none) (i : Instr) (s : State) : Shape i s (buildExec P i s) := by
  cases i with
  | cbcConstruct a b => exact construct_shape h rfl rfl
  | cbcSetKey a => exact setKey_shape h rfl rfl
  | cbcSetIv a => exact setIv_shape h rfl rfl
  | cbcEncrypt a => exact cbcEncrypt_shape h (by simp [Instr.func])
  | cbcDecrypt a => exact cbcDecrypt_shape h (by simp [Instr.func])
  | ctrConstruct a b => exact construct_shape h rfl rfl
  | ctrSetKey a => exact setKey_shape h rfl rfl
  | ctrSetIv a => exact setIv_shape h rfl rfl
  | ctrEncrypt a => exact ctrData_shape h (by decide) (by simp [Instr.func])
  | ctrDecrypt a => exact ctrData_shape h (by decide) (by simp [Instr.func])

/-- Everything a command of this hardware can do. -/
theorem exec_shape (i : Instr) (s : State) : Shape i s (exec i s) := by
  rw [exec_eq_buildExec_arm]; exact buildExec_shape rfl i s

/-- The answer of a result that delivers `r` after sending requests, from a state with the responses of `s`. -/
theorem answerOf_deliver {s s' : State} {r : Response} {rs : List PrimRequest} (h : s'.responses = s.responses) :
    answerOf s (.next (deliver r (sendRequests rs s'))) = some r := by simp [answerOf, newResponses, h]

/-- Everything a step can do. -/
theorem step_cases {s t : State} (h : step s = .next t) :
    (s.hostInput = [] ∧ t = s) ∨
    (∃ c rest, s.hostInput = .reset c :: rest ∧ t = applyReset { s with hostInput := rest }) ∨
    (∃ c rest w, s.hostInput = .command c :: rest ∧ decode c = .error w ∧
      t = deliver (errorResponse (.illegalCommand c.op)) { s with hostInput := rest }) ∨
    (∃ c rest i, s.hostInput = .command c :: rest ∧ decode c = .ok i ∧ exec i { s with hostInput := rest } = .next t) := by
  match hh : s.hostInput with
  | [] => rw [step_of_idle hh] at h; injection h with h; exact .inl ⟨rfl, h.symm⟩
  | .reset c :: rest =>
    rw [step_of_reset hh] at h; injection h with h; exact .inr (.inl ⟨c, rest, rfl, h.symm⟩)
  | .command c :: rest =>
    rw [step_of_command hh, runCommand] at h
    cases hd : decode c with
    | error w =>
      simp only [hd] at h; injection h with h
      exact .inr (.inr (.inl ⟨c, rest, w, rfl, hd, h.symm⟩))
    | ok i =>
      simp only [hd] at h
      exact .inr (.inr (.inr ⟨c, rest, i, rfl, hd, h⟩))

end Sys2Proof.Machine
end

