-- ==== Sys2Proof/Laws/PerInstr.lean ====
section
/-! SUPPORT. What is said of every instruction as syntax, one lemma for each constructor. -/

namespace Sys2Proof.Laws.EncodeDecode

/-- The record of the instruction decodes to it, and is in the form the host sends. -/
def Statement (i : Instr) : Prop := decode (encode i) = .ok i ∧ (encode i).canonical = true

theorem cbcConstruct (key iv : Bytes) : Statement (.cbcConstruct key iv) :=
  ⟨decode_of_decodeOp (e := .cbc) (f := .construct) (decodeOp_opByte _ _), encode_canonical _⟩
theorem cbcSetKey (key : Bytes) : Statement (.cbcSetKey key) :=
  ⟨decode_of_decodeOp (e := .cbc) (f := .setKey) (decodeOp_opByte _ _), encode_canonical _⟩
theorem cbcSetIv (iv : Bytes) : Statement (.cbcSetIv iv) :=
  ⟨decode_of_decodeOp (e := .cbc) (f := .setIv) (decodeOp_opByte _ _), encode_canonical _⟩
theorem cbcEncrypt (data : Bytes) : Statement (.cbcEncrypt data) :=
  ⟨decode_of_decodeOp (e := .cbc) (f := .encrypt) (decodeOp_opByte _ _), encode_canonical _⟩
theorem cbcDecrypt (data : Bytes) : Statement (.cbcDecrypt data) :=
  ⟨decode_of_decodeOp (e := .cbc) (f := .decrypt) (decodeOp_opByte _ _), encode_canonical _⟩
theorem ctrConstruct (key iv : Bytes) : Statement (.ctrConstruct key iv) :=
  ⟨decode_of_decodeOp (e := .ctr) (f := .construct) (decodeOp_opByte _ _), encode_canonical _⟩
theorem ctrSetKey (key : Bytes) : Statement (.ctrSetKey key) :=
  ⟨decode_of_decodeOp (e := .ctr) (f := .setKey) (decodeOp_opByte _ _), encode_canonical _⟩
theorem ctrSetIv (iv : Bytes) : Statement (.ctrSetIv iv) :=
  ⟨decode_of_decodeOp (e := .ctr) (f := .setIv) (decodeOp_opByte _ _), encode_canonical _⟩
theorem ctrEncrypt (data : Bytes) : Statement (.ctrEncrypt data) :=
  ⟨decode_of_decodeOp (e := .ctr) (f := .encrypt) (decodeOp_opByte _ _), encode_canonical _⟩
theorem ctrDecrypt (data : Bytes) : Statement (.ctrDecrypt data) :=
  ⟨decode_of_decodeOp (e := .ctr) (f := .decrypt) (decodeOp_opByte _ _), encode_canonical _⟩

end Sys2Proof.Laws.EncodeDecode
end

