-- ==== Sys2Proof/Laws/Text.lean ====
section
/-! SUPPORT. The hex digits: each is read back as its value, and none is a character the syntax uses for something else. -/

namespace Sys2Proof.Machine

/-- A written digit is read as its value. -/
@[simp] theorem hexValue_hexDigit : ∀ n : BitVec 4, hexValue (hexDigit n) = some n := by decide

/-- A digit is no separator of operands, starts no comment, is no space and no quotation mark. -/
theorem hexDigit_ne_separator :
    ∀ n : BitVec 4, hexDigit n ≠ ',' ∧ hexDigit n ≠ ';' ∧ hexDigit n ≠ ' ' ∧ hexDigit n ≠ '"' := by decide

end Sys2Proof.Machine
end

