-- ==== Sys2Proof/Tests/Slice0.lean ====
section
/-! SUPPORT. Tests. Every expected result is the spec's: the numbers of spec/95_test_vectors.md and of the rules' own examples,
with the fixture primitives of 95_test_vectors.md section 2. Then a witness for the hypotheses of every obligation that has any. -/

namespace Sys2Proof.Tests

set_option Elab.async false

open Sys2Proof.Machine

/-! ### Fixtures (95_test_vectors.md, head and section 2) -/

/-- The `n` bytes of a hex string written as one number, index 0 first. -/
def bytes (n x : Nat) : Bytes := (List.range n).map fun j => BitVec.ofNat 8 (x / 256 ^ (n - 1 - j))

/-- A block written as one number. -/
def blk (x : Nat) : Block := ⟨bytes 16 x, by simp [bytes]⟩

/-- The message `00 01 02 ...` of `n` bytes. -/
def upTo (n : Nat) : Bytes := (List.range n).map fun j => BitVec.ofNat 8 j

def K : Key := blk 0x0123456789abcdef0123456789abcdef
def V : Block := blk 0x00001111222233334444555566667777

/-- `rotl1`: byte 0 goes to the end. -/
def rotl1 (b : Block) : Block := ⟨b.toList.drop 1 ++ b.toList.take 1, by simp [b.length_eq]⟩

/-- `rotr1`: byte 15 goes to the front. -/
def rotr1 (b : Block) : Block := ⟨b.toList.drop 15 ++ b.toList.take 15, by simp [b.length_eq]⟩

theorem rotr1_rotl1 (b : Block) : rotr1 (rotl1 b) = b := by
  obtain ⟨l, hl⟩ := b
  match l, hl with
  | [_, _, _, _, _, _, _, _, _, _, _, _, _, _, _, _], _ => rfl

theorem rotl1_rotr1 (b : Block) : rotl1 (rotr1 b) = b := by
  obtain ⟨l, hl⟩ := b
  match l, hl with
  | [_, _, _, _, _, _, _, _, _, _, _, _, _, _, _, _], _ => rfl

/-- `P_ID`. -/
def primId (_ : Key) : PrimInstance := Equiv.refl Block

/-- `P_XORK`. -/
def primXork (k : Key) : PrimInstance := ⟨fun b => xor16 b k, fun b => xor16 b k, fun b => xor16_cancel b k, fun b => xor16_cancel b k⟩

/-- `P_ROT`. -/
def primRot (k : Key) : PrimInstance where
  toFun b := rotl1 (xor16 b k)
  invFun b := xor16 (rotr1 b) k
  left_inv b := by show xor16 (rotr1 (rotl1 _)) k = b; rw [rotr1_rotl1, xor16_cancel]
  right_inv b := by show rotl1 (xor16 (xor16 _ k) k) = b; rw [xor16_cancel, rotl1_rotr1]

/-- An unbounded build with a fixture primitive, the padding trusted. -/
def build (p : Key → PrimInstance) : Params := ⟨p, false, none⟩

/-- The same with `PAD_VALIDATE = true`. -/
def hardened (p : Key → PrimInstance) : Params := ⟨p, true, none⟩

/-- A build of capacity `cap`. -/
def capped (cap : Nat) : Params := ⟨primId, false, some cap⟩

/-- Both engines constructed with `(K, V)`. -/
def ready : State := { State.reset with cbc := some ⟨K, V⟩, ctr := some ⟨K, V⟩ }

/-- Only the CBC engine constructed. -/
def cbcOnly : State := { State.reset with cbc := some ⟨K, V⟩ }

/-- The state a result leaves. -/
def after (r : Result) : State :=
  match r with
  | .next t => t
  | .fault _ => State.reset
  | .refused _ => State.reset

/-! ### Shared utilities (95 section 3) -/

theorem test_xor16 : xor16 V (blk 0x10101010101010101010101010101010) = blk 0x10100101323223235454454576766767 := by
  decide +kernel

theorem test_xorn :
    xorn (bytes 3 0x101112) (blk 0xff00ff00000000000000000000000000) = bytes 3 0xef11ed ∧ xorn [] V = [] := by
  decide +kernel

theorem test_nblocks :
    [0, 1, 15, 16, 17, 32, 33].map nblocksCeil = [0, 1, 1, 1, 2, 2, 3] ∧ [16, 32, 48].map nblocksExact = [1, 2, 3] := by
  decide +kernel

theorem test_block : block (upTo 33) 1 = bytes 16 0x101112131415161718191a1b1c1d1e1f ∧ block (upTo 33) 2 = [0x20] := by
  decide +kernel

theorem test_be64 :
    be64Decode ⟨bytes 8 0x4444555566667777, rfl⟩ = 4919150518273996663#64 ∧
    be64Decode ⟨bytes 8 0x0100000000000000, rfl⟩ = 72057594037927936#64 ∧
    (be64Encode 0x0102030405060708#64).toList = bytes 8 0x0102030405060708 := by
  decide +kernel

theorem test_add64 :
    add64 0x00000000000000ff#64 1 = 0x100#64 ∧ add64 0xffffffffffffffff#64 1 = 0#64 ∧ add64 0xffffffffffffffff#64 2 = 1#64 := by
  decide +kernel

theorem test_counterBlock_wrap :
    counterBlock ⟨bytes 8 0x0000111122223333, rfl⟩ (add64 0xffffffffffffffff#64 1) =
      blk 0x00001111222233330000000000000000 := by decide +kernel

theorem test_splitIv : splitIv V = (⟨bytes 8 0x0000111122223333, rfl⟩, 0x4444555566667777#64) := by decide +kernel

/-- R45, D13: byte 0 is bits 127 to 120. -/
theorem test_pack128 : pack128 V = 0x00001111222233334444555566667777#128 := by decide +kernel

theorem test_pad :
    pad (bytes 3 0x616263) = bytes 16 0x6162630d0d0d0d0d0d0d0d0d0d0d0d0d ∧
    [0, 1, 15, 16, 17, 31, 32].map padLength = [16, 15, 1, 16, 15, 1, 16] := by decide +kernel

/-! ### Configuration commands (95 section 4) -/

theorem test_cbcConstruct :
    (after (exec (.cbcConstruct K.toList V.toList) State.reset)).cbc = some ⟨K, V⟩ ∧
    (after (exec (.cbcConstruct K.toList V.toList) State.reset)).ctr = none := by decide +kernel

theorem test_cbcConstruct_bad_iv_keeps_both :
    answerOf ready (exec (.cbcConstruct (List.replicate 16 0xff) []) ready) = some ⟨.invalidKeyIvLength, 0x01, []⟩ ∧
    (after (exec (.cbcConstruct (List.replicate 16 0xff) []) ready)).cbc = some ⟨K, V⟩ := by decide +kernel

theorem test_ctrConstruct :
    (after (exec (.ctrConstruct K.toList V.toList) cbcOnly)).ctr = some ⟨K, V⟩ ∧
    (after (exec (.ctrConstruct K.toList V.toList) cbcOnly)).cbc = some ⟨K, V⟩ := by decide +kernel

theorem test_ctrConstruct_key_reported_first :
    answerOf State.reset (exec (.ctrConstruct (upTo 17) (upTo 15)) State.reset) = some ⟨.invalidKeyIvLength, 0x00, []⟩ := by
  decide +kernel

theorem test_cbcSetKey_state_before_operand :
    answerOf State.reset (exec (.cbcSetKey (bytes 2 0x0001)) State.reset) = some ⟨.notConstructed, 0x01, []⟩ := by decide +kernel

theorem test_cbcSetKey :
    (after (exec (.cbcSetKey (upTo 16)) ready)).cbc = some ⟨blk 0x000102030405060708090a0b0c0d0e0f, V⟩ := by decide +kernel

theorem test_ctrSetKey :
    (after (exec (.ctrSetKey (List.replicate 16 0xff)) ready)).ctr = some ⟨blk 0xffffffffffffffffffffffffffffffff, V⟩ := by
  decide +kernel

theorem test_ctrSetKey_too_long :
    answerOf ready (exec (.ctrSetKey (K.toList ++ [0x00])) ready) = some ⟨.invalidKeyIvLength, 0x00, []⟩ ∧
    (after (exec (.ctrSetKey (K.toList ++ [0x00])) ready)).ctr = some ⟨K, V⟩ := by decide +kernel

theorem test_cbcSetIv :
    (after (exec (.cbcSetIv (bytes 16 0xffeeddccbbaa99887766554433221100)) ready)).cbc =
      some ⟨K, blk 0xffeeddccbbaa99887766554433221100⟩ := by decide +kernel

theorem test_cbcSetIv_too_long :
    answerOf ready (exec (.cbcSetIv (upTo 32)) ready) = some ⟨.invalidKeyIvLength, 0x01, []⟩ := by decide +kernel

theorem test_ctrSetIv :
    ((after (exec (.ctrSetIv (bytes 16 0x0000111122223333ffffffffffffffff)) ready)).ctr.map fun i => splitIv i.iv) =
      some (⟨bytes 8 0x0000111122223333, rfl⟩, 0xffffffffffffffff#64) := by decide +kernel

theorem test_ctrSetIv_not_constructed :
    answerOf cbcOnly (exec (.ctrSetIv V.toList) cbcOnly) = some ⟨.notConstructed, 0x12, []⟩ ∧
    (after (exec (.ctrSetIv V.toList) cbcOnly)).cbc = some ⟨K, V⟩ := by decide +kernel

/-! ### CBC (95 sections 1, 2, 5) -/

/-- V1 under `P_ROT`. -/
theorem test_cbcEncrypt_empty :
    answerOf ready (buildExec (build primRot) (.cbcEncrypt []) ready) =
      some ⟨.ok, 0x00, bytes 16 0x334466bb99eecc55770022ffddaa8811⟩ := by decide +kernel

/-- 17 bytes, `P_ROT`: both blocks, the chain, the last block padded. -/
theorem test_cbcEncrypt_seventeen :
    answerOf ready (buildExec (build primRot) (.cbcEncrypt (upTo 17)) ready) =
      some ⟨.ok, 0x00, bytes 32 0x225675af8cf8db4d6e1a39e3c0b497017a3fc70a5c19ad6036738b461055e133⟩ := by decide +kernel

/-- 5.5 row i: `P = 17` on 32 bytes is trusted. -/
theorem test_cbcDecrypt_trusts_the_pad_byte :
    answerOf ready (buildExec (build primRot)
        (.cbcDecrypt (bytes 32 0x225675af8cf8db4d6e1a39e3c0b497016422db114600b57720669f550244ff33)) ready) =
      some ⟨.ok, 0x00, bytes 15 0x000102030405060708090a0b0c0d0e⟩ := by decide +kernel

/-- 5.5 row e: `P = 17` on 16 bytes fails. -/
theorem test_cbcDecrypt_pad_too_long :
    answerOf ready (buildExec (build primRot) (.cbcDecrypt (bytes 16 0x225675af8cf8db4d6e1a39e3c0b48901)) ready) =
      some ⟨.padLengthError, 0x01, []⟩ := by decide +kernel

/-- 5.5 row i, hardened: `P > 16`, and `PadInconsistentError` comes before the byte compare. -/
theorem test_hardened_over_block :
    answerOf ready (buildExec (hardened primRot)
        (.cbcDecrypt (bytes 32 0x225675af8cf8db4d6e1a39e3c0b497016422db114600b57720669f550244ff33)) ready) =
      some ⟨.padInconsistentError, 0x00, []⟩ := by decide +kernel

/-- 5.5 row g, hardened: trailing bytes `0d 0e 04` are not all 4. -/
theorem test_hardened_mismatch :
    answerOf ready (buildExec (hardened primRot) (.cbcDecrypt (bytes 16 0x225675af8cf8db4d6e1a39e3c0b49c01)) ready) =
      some ⟨.padInconsistentError, 0x01, []⟩ := by decide +kernel

/-- 5.3, `P_ID`, 16 bytes: the second block chains from the ciphertext block before it. -/
theorem test_cbcChain_uses_the_ciphertext :
    concatBlocks (cbcChainEnc ((build primId).E K) V (chunks (pad (upTo 16)))) =
      bytes 32 0x00011312262735344c4d5f5e6a6b797810110302363725245c5d4f4e7a7b6968 := by decide +kernel

/-- 5.3, `P_XORK`: the key is used. -/
theorem test_cbcChain_uses_the_key :
    concatBlocks (cbcChainEnc ((build primXork).E K) V (chunks (pad [0x61]))) =
      bytes 16 0x602c5b79a486f1d34a681f3de0c2b597 := by decide +kernel

/-! ### CTR (95 section 6) -/

/-- 17 bytes, `P_ROT`: the first counter block is the IV (90_conflicts.md C3) and the last block is cut to its first byte. -/
theorem test_ctrEncrypt_seventeen :
    answerOf ready (buildExec (build primRot) (.ctrEncrypt (upTo 17)) ready) =
      some ⟨.ok, 0x00, bytes 17 0x235574a88dfbda426f1938e4c1b7960e33⟩ := by decide +kernel

/-- 6.3: the counter wraps and nothing carries into the nonce. -/
theorem test_ctrEncrypt_wrap :
    answerOf ready (buildExec (build primRot) (.ctrEncrypt (List.replicate 33 0x00))
        { ready with ctr := some ⟨K, blk 0x0000111122223333ffffffffffffffff⟩ }) =
      some ⟨.ok, 0x00, bytes 33 0x235476ab89fedcfedcba987654321001235476ab89fedc0123456789abcdef0123⟩ := by decide +kernel

/-- V2 backwards under `P_ROT`: `E`, not `D`. -/
theorem test_ctrDecrypt_one_byte :
    answerOf ready (buildExec (build primRot) (.ctrDecrypt [0x42]) ready) = some ⟨.ok, 0x00, [0x61]⟩ := by decide +kernel

/-- 6.2, `P_XORK`, and the empty input. -/
theorem test_ctrDecrypt_seventeen_and_none :
    answerOf ready (buildExec (build primXork) (.ctrDecrypt (upTo 17)) ready) =
      some ⟨.ok, 0x00, bytes 17 0x01225675af8cf8db4d6e1a39e3c0b49711⟩ ∧
    answerOf ready (buildExec (build primXork) (.ctrDecrypt []) ready) = some ⟨.ok, 0x00, []⟩ := by decide +kernel

/-! ### Decoding (R61 to R63, written out bit by bit: RSV, ENG, FUNC) -/

theorem test_decode_cbcConstruct : decode ⟨0b000_0_0000, [1], [2]⟩ = .ok (.cbcConstruct [1] [2]) := rfl
theorem test_decode_cbcSetKey : decode ⟨0b000_0_0001, [1], []⟩ = .ok (.cbcSetKey [1]) := rfl
theorem test_decode_cbcSetIv : decode ⟨0b000_0_0010, [1], []⟩ = .ok (.cbcSetIv [1]) := rfl
theorem test_decode_cbcEncrypt : decode ⟨0b000_0_0011, [1], []⟩ = .ok (.cbcEncrypt [1]) := rfl
theorem test_decode_cbcDecrypt : decode ⟨0b000_0_0100, [1], []⟩ = .ok (.cbcDecrypt [1]) := rfl
theorem test_decode_ctrConstruct : decode ⟨0b000_1_0000, [1], [2]⟩ = .ok (.ctrConstruct [1] [2]) := rfl
theorem test_decode_ctrSetKey : decode ⟨0b000_1_0001, [1], []⟩ = .ok (.ctrSetKey [1]) := rfl
theorem test_decode_ctrSetIv : decode ⟨0b000_1_0010, [1], []⟩ = .ok (.ctrSetIv [1]) := rfl
theorem test_decode_ctrEncrypt : decode ⟨0b000_1_0011, [1], []⟩ = .ok (.ctrEncrypt [1]) := rfl
theorem test_decode_ctrDecrypt : decode ⟨0b000_1_0100, [1], []⟩ = .ok (.ctrDecrypt [1]) := rfl

/-- 95 section 8, the reserved bytes. -/
theorem test_decode_reserved :
    decode ⟨0x05, [], []⟩ = .error (.funcCode 0x05) ∧ decode ⟨0x0f, [], []⟩ = .error (.funcCode 0x0f) ∧
    decode ⟨0x15, [], []⟩ = .error (.funcCode 0x15) ∧ decode ⟨0x1f, [], []⟩ = .error (.funcCode 0x1f) ∧
    decode ⟨0x20, [], []⟩ = .error (.rsvBits 0x20) ∧ decode ⟨0x23, [], []⟩ = .error (.rsvBits 0x23) ∧
    decode ⟨0x80, [], []⟩ = .error (.rsvBits 0x80) ∧ decode ⟨0xff, [], []⟩ = .error (.rsvBits 0xff) :=
  ⟨rfl, rfl, rfl, rfl, rfl, rfl, rfl, rfl⟩

/-- "Of the 256 values, 10 are commands and 246 are reserved." -/
theorem test_decode_ten_commands :
    ((List.range 256).filter fun w => (decodeTableWord 8 w).isSome) = [0, 1, 2, 3, 4, 16, 17, 18, 19, 20] := by decide +kernel

/-- The first step after reset runs the table's word. -/
theorem test_step_withFetchWord :
    step (State.reset.withFetchWord 8 0x13) = exec (.ctrEncrypt []) State.reset ∧
    step (State.reset.withFetchWord 8 0x00) = exec (.cbcConstruct [] []) State.reset := ⟨rfl, rfl⟩

/-- 95 section 8: decode comes before everything. -/
theorem test_step_reserved :
    (after (step (State.reset.withFetchWord 8 0x05))).responses = [⟨.illegalCommand, 0x05, []⟩] := by decide +kernel

/-! ### Text (R69; D21) -/

theorem test_asmLine :
    asmLine (.ctrConstruct [0x0a] [0xff, 0x00]) = "CTR.CONSTRUCT key=0a, iv=ff00".toList ∧
    asmLine (.cbcEncrypt []) = "CBC.ENCRYPT data=".toList := by decide +kernel

theorem test_readLine :
    readLine "CBC.CONSTRUCT key=0A, iv=\"\"   ; a comment".toList = some (.cbcConstruct [0x0a] []) ∧
    readLine "CBC.ENCRYPT data=616".toList = none := by decide +kernel

/-- The example of R69. -/
theorem test_responseLine : responseLine ⟨.ok, 0x00, bytes 2 0x6162⟩ = "-> OK(00) out=6162".toList := by decide +kernel

/-! ### WellFormed: an ill-formed command for each check (R52), on a build of capacity 16 -/

theorem test_wf_refuses_long_key : Instr.wellFormed (some 16) (.cbcConstruct (upTo 17) V.toList) = false := by decide +kernel
theorem test_wf_refuses_long_iv : Instr.wellFormed (some 16) (.ctrConstruct K.toList (upTo 17)) = false := by decide +kernel
theorem test_wf_refuses_long_operand :
    ([Instr.cbcSetKey, .cbcSetIv, .cbcEncrypt, .cbcDecrypt, .ctrSetKey, .ctrSetIv, .ctrEncrypt, .ctrDecrypt].map
      fun i => Instr.wellFormed (some 16) (i (upTo 17))) = List.replicate 8 false := by decide +kernel

/-- The padded length of 17 bytes is 32, which is over 15 + 16; that of 15 bytes is 16, which is not. -/
theorem test_wf_fitsPadded : fitsPadded (some 15) 17 = false ∧ fitsPadded (some 15) 15 = true := by decide +kernel

theorem test_wf_accepts_at_capacity :
    Instr.wellFormed (some 16) (.cbcEncrypt (upTo 16)) = true ∧ Instr.wellFormed none (.cbcEncrypt (upTo 17)) = true := by
  decide +kernel

theorem test_capped_build_refuses :
    buildExec (capped 16) (.ctrEncrypt (upTo 17)) ready = .refused (.overBufCap 16 17) := rfl

/-! ### Witnesses: the hypotheses of each obligation can be met, for every clause -/

/-- A ready machine about to perform one command. -/
def aboutTo (c : Command) : State := { ready with hostInput := [.command c] }

theorem witness_DecoderFollowsTheOpcodeMap :
    (∃ r ∈ opcodeTable, r.selects 0x14 = true) ∧ (∃ r ∈ opcodeTable, r.selects 0x00 = true) ∧
    (∀ r ∈ opcodeTable, r.selects 0x05 = false) ∧ opRsv 0x20 ≠ 0#3 ∧ 5 ≤ (opFunc 0x1f).toNat := by decide +kernel

theorem witness_DecodeEncodeAgree :
    Command.canonical ⟨0x10, [1], [2]⟩ = true ∧ decode ⟨0x10, [1], [2]⟩ = .ok (.ctrConstruct [1] [2]) ∧
    Command.canonical ⟨0x03, [1], []⟩ = true ∧ Command.canonical ⟨0x03, [1], [2]⟩ = false ∧
    Command.canonical ⟨0x20, [1], [2]⟩ = true := ⟨rfl, rfl, rfl, rfl, rfl⟩

theorem witness_StepRunsTheDecodedCommand :
    (aboutTo ⟨0x03, [1], []⟩).hostInput = .command ⟨0x03, [1], []⟩ :: [] ∧ decode ⟨0x03, [1], []⟩ = .ok (.cbcEncrypt [1]) :=
  ⟨rfl, rfl⟩

theorem witness_ReservedCommandRaisesIllegalCommand :
    (aboutTo ⟨0x05, [1], [2]⟩).hostInput = .command ⟨0x05, [1], [2]⟩ :: [] ∧ 5 ≤ (opFunc 0x05).toNat ∧
    (aboutTo ⟨0x20, [], []⟩).hostInput = .command ⟨0x20, [], []⟩ :: [] ∧ opRsv 0x20 ≠ 0#3 := by decide +kernel

theorem witness_StepWaitsForTheHost : ready.hostInput = [] := rfl

/-- A reset between commands and a reset with one in progress. -/
theorem witness_ResetAbandonsTheOperation :
    ({ ready with hostInput := [.reset none] } : State).hostInput = .reset none :: [] ∧
    ({ ready with hostInput := [.reset (some ⟨0x03, [1], []⟩)] } : State).hostInput = .reset (some ⟨0x03, [1], []⟩) :: [] :=
  ⟨rfl, rfl⟩

/-- `DeliveredResponsesNeverChange`, `StepKeepsTheInvariant`: a good state that has answered one command and performs a second. -/
theorem witness_StepKeepsTheInvariant :
    ∃ s t : State, Inv s ∧ s.responses = [⟨.ok, 0x00, []⟩] ∧ step s = .next t ∧
      t.responses = [⟨.ok, 0x00, []⟩, ⟨.illegalCommand, 0x20, []⟩] :=
  ⟨{ aboutTo ⟨0x20, [], []⟩ with responses := [⟨.ok, 0x00, []⟩], ci := 1 }, _,
    ⟨Nat.le_refl 1, by intro r hr; obtain rfl := List.mem_singleton.mp hr; rfl⟩, rfl, rfl, rfl⟩

/-- The configuration commands: operands of 16 bytes and of 15, 17 and 0; engines constructed and not. -/
theorem witness_ConfigurationCommands :
    K.toList.length = 16 ∧ V.toList.length = 16 ∧ (upTo 15).length ≠ 16 ∧ (upTo 17).length ≠ 16 ∧ ([] : Bytes).length ≠ 16 ∧
    ready.cbc = some ⟨K, V⟩ ∧ ready.ctr = some ⟨K, V⟩ ∧ State.reset.cbc = none ∧ State.reset.ctr = none ∧
    (V.toList.drop 8).length = 8 := by decide +kernel

theorem witness_ConstructIsSetKeyThenSetIv :
    ready.cbc ≠ none ∧ ready.ctr ≠ none ∧ K.toList.length = 16 ∧ V.toList.length = 16 ∧ (upTo 15).length ≠ 16 := by
  decide +kernel

/-- `u` with the configuration that `CONSTRUCT`, `SET_KEY` and `SET_IV` in turn load, for each engine. -/
theorem witness_NewConfigurationIsInForceNext :
    ready.cbc = some ⟨K, V⟩ ∧ ({ State.reset with cbc := some ⟨V, K⟩ } : State).cbc = some ⟨V, K⟩ ∧
    ({ State.reset with cbc := some ⟨V, V⟩ } : State).cbc = some ⟨V, V⟩ ∧
    ({ State.reset with cbc := some ⟨K, K⟩ } : State).cbc = some ⟨K, K⟩ ∧
    ready.ctr = some ⟨K, V⟩ ∧ ({ State.reset with ctr := some ⟨V, K⟩ } : State).ctr = some ⟨V, K⟩ ∧
    ({ State.reset with ctr := some ⟨V, V⟩ } : State).ctr = some ⟨V, V⟩ ∧
    ({ State.reset with ctr := some ⟨K, K⟩ } : State).ctr = some ⟨K, K⟩ ∧
    Instr.engine (.cbcDecrypt [1]) = .cbc ∧ Instr.func (.cbcDecrypt [1]) = .decrypt ∧
    Instr.engine (.ctrEncrypt [1]) = .ctr ∧ Instr.func (.ctrEncrypt [1]) = .encrypt :=
  ⟨rfl, rfl, rfl, rfl, rfl, rfl, rfl, rfl, rfl, rfl, rfl, rfl⟩

/-- `CbcEncryptOutput`, `CbcDecryptOutcome`, `CbcDecryptOfEveryBuild`, `PrimitiveRequestCounts`: engine constructed and not; the lengths
0, 15, 17 fail and 16 passes. -/
theorem witness_CbcCommands :
    State.reset.cbc = none ∧ ready.cbc = some ⟨K, V⟩ ∧ Config.hardware.bufCap = none ∧
    ¬ (0 < (upTo 0).length ∧ (upTo 0).length % 16 = 0) ∧ ¬ (0 < (upTo 15).length ∧ (upTo 15).length % 16 = 0) ∧
    ¬ (0 < (upTo 17).length ∧ (upTo 17).length % 16 = 0) ∧ 0 < (upTo 16).length ∧ (upTo 16).length % 16 = 0 := by
  decide +kernel

/-- On this hardware, whatever its primitive is, one block decrypts to any block `m` the tester wants. -/
theorem decrypt_one_block (m : Block) :
    answerOf ready (exec (.cbcDecrypt (Config.hardware.E K (xor16 m V)).toList) ready) =
      some (match unpad false m.toList with
        | .error e => errorResponse e
        | .ok out => okResponse out) := by
  have hl : (Config.hardware.E K (xor16 m V)).toList.length = 16 := BytesN.length_eq _
  have hch := chunks_append (Config.hardware.E K (xor16 m V)) []
  rw [List.append_nil, chunks_nil] at hch
  have hD : Config.hardware.D K (Config.hardware.E K (xor16 m V)) = xor16 m V := Equiv.symm_apply_apply _ _
  show answerOf ready (cbcDecrypt Config.hardware _ ready) = _
  rw [cbcDecrypt, withinCap_hardware, withInstance_some (inst := ⟨K, V⟩) rfl, if_pos (by rw [hl]; rfl), hch]
  simp only [List.foldl_cons, List.foldl_nil, cbcDecBlock, appendOut_eq, List.nil_append, hD, xor16_cancel,
    hardware_padValidate]
  cases unpad false m.toList <;> exact answerOf_deliver rfl

/-- The three outcomes of the pad byte on this hardware, at `P = 0`, `P = 17 > L`, `P = 16 = L` and `P = 1`. -/
theorem witness_CbcDecryptOutcome :
    (∃ a, answerOf ready (exec (.cbcDecrypt a) ready) = some ⟨.padLengthError, 0x00, []⟩) ∧
    (∃ a, answerOf ready (exec (.cbcDecrypt a) ready) = some ⟨.padLengthError, 0x01, []⟩) ∧
    (∃ a, answerOf ready (exec (.cbcDecrypt a) ready) = some ⟨.ok, 0x00, []⟩) ∧
    (∃ a, answerOf ready (exec (.cbcDecrypt a) ready) = some ⟨.ok, 0x00, upTo 15⟩) :=
  ⟨⟨_, (decrypt_one_block (blk 0x000102030405060708090a0b0c0d0e00)).trans rfl⟩,
   ⟨_, (decrypt_one_block (blk 0x000102030405060708090a0b0c0d0e11)).trans rfl⟩,
   ⟨_, (decrypt_one_block (blk 0x10101010101010101010101010101010)).trans rfl⟩,
   ⟨_, (decrypt_one_block (blk 0x000102030405060708090a0b0c0d0e01)).trans rfl⟩⟩

/-- `CbcRoundTrip`: two states, one of them with the engine constructed by a command, hold the same configuration. -/
theorem witness_CbcRoundTrip :
    ready.cbc = some ⟨K, V⟩ ∧ (after (exec (.cbcConstruct K.toList V.toList) State.reset)).cbc = some ⟨K, V⟩ ∧
    (hardened primRot).bufCap = none := by decide +kernel

/-- `CbcOutputLength`: both commands answer `OK`, the decryption at `P = 1`. -/
theorem witness_CbcOutputLength :
    (∃ out, answerOf ready (exec (.cbcEncrypt []) ready) = some ⟨.ok, 0x00, out⟩) ∧
    (∃ a, answerOf ready (exec (.cbcDecrypt a) ready) = some ⟨.ok, 0x00, upTo 15⟩) :=
  ⟨⟨_, rfl⟩, witness_CbcDecryptOutcome.2.2.2⟩

/-- The indices at the start and at the end of a chain of two blocks. -/
theorem witness_CbcChainsByIndex :
    [K, V][0]? = some K ∧ (V :: cbcChainEnc id V [K, V])[0]? = some V ∧
    [K, V][1]? = some V ∧ (V :: cbcChainEnc id V [K, V])[1]? = some (xor16 K V) ∧
    (V :: [K, V])[0]? = some V ∧ (V :: [K, V])[1]? = some K := by decide +kernel

theorem witness_PadderAppendsOneToSixteen : 16 = 16 - (upTo 16).length % 16 ∧ 1 = 16 - (upTo 15).length % 16 := by decide +kernel

theorem witness_ChunkerEmitsWholeBlocks : (upTo 32).length = 16 * 2 ∧ ([] : Bytes).length = 16 * 0 ∧ 1 < 2 := by decide +kernel

/-- `p = 0`, `p = L + 1`, `p = 1` and `p = L`. -/
theorem witness_UnpadderTrustsTheLastByte :
    (upTo 1).getLast? = some 0x00 ∧ (0x00 : Byte).toNat = 0 ∧
    [0x01, 0x03].getLast? = some (0x03 : Byte) ∧ [0x01, (0x03 : Byte)].length < (0x03 : Byte).toNat ∧
    (upTo 2).getLast? = some 0x01 ∧ 0 < (0x01 : Byte).toNat ∧ (0x01 : Byte).toNat ≤ (upTo 2).length ∧
    [0x07, 0x02].getLast? = some (0x02 : Byte) ∧ (0x02 : Byte).toNat ≤ [0x07, (0x02 : Byte)].length := by decide +kernel

/-- A buffer the trusting unpadder refuses; one with `p = 17`; one with a differing byte; one with none; the last two at `p = 16` and
`p = 2`. -/
theorem witness_HardenedUnpadderChecksThePadding :
    unpad false [0x00] = .error .padZero ∧
    (unpad false (upTo 18) = .ok [0x00] ∧ (upTo 18).getLast? = some 0x11 ∧ 16 < (0x11 : Byte).toNat) ∧
    (unpad false (upTo 17) = .ok [0x00] ∧ (upTo 17).getLast? = some 0x10 ∧ (0x10 : Byte).toNat ≤ 16 ∧
      ∃ x ∈ (upTo 17).drop 1, x ≠ 0x10) ∧
    (unpad false [0x09, 0x02, 0x02] = .ok [0x09] ∧ ∀ x ∈ [0x09, 0x02, (0x02 : Byte)].drop 1, x = 0x02) :=
  ⟨rfl, ⟨rfl, by decide +kernel, by decide +kernel⟩, ⟨rfl, by decide +kernel, by decide +kernel, by decide +kernel⟩, rfl,
    by decide +kernel⟩

theorem witness_CtrCommands :
    State.reset.ctr = none ∧ ready.ctr = some ⟨K, V⟩ ∧
    (after (exec (.ctrConstruct K.toList V.toList) State.reset)).ctr = some ⟨K, V⟩ := by
  decide +kernel

/-- `CtrPreservesLength`: both commands answer `OK`, and two inputs that agree on the last byte of the first and not before it. -/
theorem witness_CtrPreservesLength :
    (∃ o, answerOf ready (exec (.ctrEncrypt (upTo 17)) ready) = some ⟨.ok, 0x00, o⟩) ∧
    (∃ o, answerOf ready (exec (.ctrDecrypt (upTo 17)) ready) = some ⟨.ok, 0x00, o⟩) ∧
    (upTo 17)[16]? = (List.replicate 16 0x00 ++ [0x10] : Bytes)[16]? ∧ upTo 17 ≠ List.replicate 16 0x00 ++ [0x10] :=
  ⟨⟨_, rfl⟩, ⟨_, rfl⟩, by decide +kernel, by decide +kernel⟩

theorem witness_CounterWrapKeepsTheNonce :
    ((blk 0x0000111122223333ffffffffffffffff).toList.drop 8).length = 8 ∧
    (be64Decode ⟨bytes 8 0xffffffffffffffff, rfl⟩).toNat + 1 = 2 ^ 64 := by decide +kernel

theorem witness_ShortBlockIsACutFullBlock : (upTo 0).length ≤ 16 ∧ (upTo 16).length ≤ 16 := by decide +kernel

theorem witness_Xor16WorksByLanes :
    (blk 0).toList = List.replicate 16 0x00 ∧ (blk 0xffffffffffffffffffffffffffffffff).toList = List.replicate 16 0xFF := by
  decide +kernel

theorem witness_BlocksPartitionTheBuffer :
    (upTo 0).length = 0 ∧ (upTo 32).length % 16 = 0 ∧ (upTo 33).length % 16 ≠ 0 ∧ 16 * 2 < (upTo 33).length := by decide +kernel

/-- `ErrorsChangeNoEngine`, `ErrorsLeaveNoTrace`: a command that fails on this hardware, a reserved one, and one that fails on the
hardened build. -/
theorem witness_Errors :
    (∃ t, runCommand exec ⟨0x04, [], []⟩ ready = .next t ∧
      t.responses = ready.responses ++ [⟨.malformedCiphertextLength, 0x00, []⟩]) ∧
    answerOf ready (runCommand exec ⟨0x04, [], []⟩ ready) = some ⟨.malformedCiphertextLength, 0x00, []⟩ ∧
    (∃ t, runCommand exec ⟨0x05, [], []⟩ ready = .next t ∧ t.responses = ready.responses ++ [⟨.illegalCommand, 0x05, []⟩]) ∧
    (∃ t, runCommand (buildExec (hardened primId)) ⟨0x04, [], []⟩ ready = .next t ∧
      t.responses = ready.responses ++ [⟨.malformedCiphertextLength, 0x00, []⟩]) ∧
    Status.malformedCiphertextLength ≠ Status.ok :=
  ⟨⟨_, rfl, rfl⟩, rfl, ⟨_, rfl, rfl⟩, ⟨_, rfl, rfl⟩, by decide⟩

theorem witness_NotConstructedComesFirst :
    Instr.func (.ctrEncrypt []) ≠ .construct ∧ cbcOnly.engine (Instr.engine (.ctrEncrypt [])) = none ∧
    Instr.func (.cbcConstruct [] []) = .construct ∧
    answerOf ready (exec (.cbcConstruct [] []) ready) = some ⟨.invalidKeyIvLength, 0x00, []⟩ ∧
    Engine.ctr ≠ Instr.engine (.cbcConstruct [] []) := by decide +kernel

theorem witness_CommandsRaiseOnlyTheirErrors :
    answerOf ready (exec (.cbcDecrypt []) ready) = some ⟨.malformedCiphertextLength, 0x00, []⟩ ∧
    mayAnswer .decrypt .cbc .padLengthError = true ∧ mayAnswer .construct .ctr .invalidKeyIvLength = true := ⟨rfl, rfl, rfl⟩

/-- Two states that agree on the CBC engine and on nothing else. -/
theorem witness_ResponseDependsOnOwnEngineOnly :
    ready.engine .cbc = cbcOnly.engine .cbc ∧ ready.engine .ctr ≠ cbcOnly.engine .ctr := by decide +kernel

/-- Two states that differ in `ci` and in the record of requests, about to perform the same command. -/
theorem witness_StepReadsOnlyTheObservation :
    ∃ s t s' t' : State, s ≠ t ∧ SameObservation s t ∧ s.hostInput = t.hostInput ∧ step s = .next s' ∧ step t = .next t' :=
  ⟨aboutTo ⟨0x01, K.toList, []⟩, { aboutTo ⟨0x01, K.toList, []⟩ with ci := 7, requests := [.init K] }, _, _,
    by decide +kernel, ⟨rfl, rfl, rfl⟩, rfl, rfl, rfl⟩

theorem witness_DataCommandsWriteNoEngine :
    Instr.func (.ctrEncrypt [1]) = .encrypt ∧ Instr.func (.cbcDecrypt [1]) = .decrypt ∧
    (∃ t, exec (.ctrEncrypt [1]) ready = .next t) ∧ ∃ t, exec (.cbcDecrypt [1]) ready = .next t :=
  ⟨rfl, rfl, ⟨_, rfl⟩, _, rfl⟩

/-- A key and an IV that change. -/
theorem witness_KeyAndIvHaveTheirWriters :
    (∃ t, exec (.cbcSetKey V.toList) ready = .next t ∧ ready.engine .cbc = some ⟨K, V⟩ ∧ t.engine .cbc = some ⟨V, V⟩) ∧
    (∃ t, exec (.ctrSetIv K.toList) ready = .next t ∧
    ready.engine .ctr = some ⟨K, V⟩ ∧ t.engine .ctr = some ⟨K, K⟩) ∧ V ≠ K :=
  ⟨⟨_, rfl, rfl, rfl⟩, ⟨_, rfl, rfl, rfl⟩, by decide +kernel⟩

/-- `CONSTRUCTED` stays 1, goes from 0 to 1, and stays 0. -/
theorem witness_ConstructedChangesOnlyByConstruct :
    (∃ t, exec (.cbcSetKey []) ready = .next t ∧ ready.constructed .cbc = true) ∧
    (∃ t, exec (.cbcConstruct K.toList V.toList) State.reset = .next t ∧ State.reset.constructed .cbc = false ∧
      t.constructed .cbc = true) ∧
    (∃ t, exec (.cbcConstruct [] []) State.reset = .next t ∧ t.constructed .cbc = false) :=
  ⟨⟨_, rfl, rfl⟩, ⟨_, rfl, rfl, rfl⟩, _, rfl, rfl⟩

theorem witness_PrimitiveRequestCounts :
    Instr.func (.cbcDecrypt [1]) ≠ .construct ∧ State.reset.engine (Instr.engine (.cbcDecrypt [1])) = none ∧
    K.toList.length = 16 ∧ V.toList.length = 16 ∧ ((upTo 17).length ≠ 16 ∨ V.toList.length ≠ 16) ∧
    Instr.func (.ctrSetKey V.toList) = .setKey ∧ ready.engine (Instr.engine (.ctrSetKey V.toList)) = some ⟨K, V⟩ ∧
    (Instr.operandA (.ctrSetKey V.toList)).length = 16 ∧ (Instr.operandA (.ctrSetKey (upTo 15))).length ≠ 16 ∧
    Instr.func (.cbcSetIv V.toList) = .setIv := by decide +kernel

theorem witness_BoundedBuildRefusesLongOperands :
    (capped 16).bufCap = some 16 ∧ Instr.wellFormed (some 16) (.cbcEncrypt (upTo 17)) = false ∧
    Instr.wellFormed (some 16) (.cbcEncrypt (upTo 16)) = true ∧ (Instr.operandA (.cbcEncrypt (upTo 16))).length ≤ 16 ∧
    (Instr.operandB (.cbcEncrypt (upTo 16))).length ≤ 16 ∧ 16 < (Instr.operandA (.ctrEncrypt (upTo 17))).length ∧
    16 < (Instr.operandB (.cbcConstruct K.toList (upTo 17))).length ∧
    15 + 16 < (upTo 16).length + (16 - (upTo 16).length % 16) := by decide +kernel

end Sys2Proof.Tests
end

section
/-! SUPPORT and CERTIFICATE. The family 10_state.md: what a command does to each field of the state, the effect of a command
as a function of its own engine's configuration, and the IV as nonce and counter. -/

namespace Sys2Proof.Machine

/-! ### What a command does to each field, read off `exec_shape` -/

section EnginesAfter
variable {i : Instr} {s s' : State} {r : Response}

theorem EnginesAfter.responses_eq (h : EnginesAfter i s s' r) : s'.responses = s.responses := by
  cases h <;> simp

theorem EnginesAfter.ci_eq (h : EnginesAfter i s s' r) : s'.ci = s.ci := by
  cases h <;> simp

theorem EnginesAfter.hostInput_eq (h : EnginesAfter i s s' r) : s'.hostInput = s.hostInput := by
  cases h <;> simp

/-- A command writes no engine but its own (R32). -/
theorem EnginesAfter.engine_other (h : EnginesAfter i s s' r) {e : Engine} (he : i.engine ≠ e) :
    s'.engine e = s.engine e := by
  cases h with
  | kept => rfl
  | constructed | rekeyed | newIv => exact setEngine_engine_other _ _ he.symm

end EnginesAfter

/-- The next state of a command, in full: engines written as `EnginesAfter` allows, requests sent, one response delivered. -/
theorem exec_next_cases {i : Instr} {s t : State} (h : exec i s = .next t) :
    ∃ s' r rs, EnginesAfter i s s' r ∧ t = deliver r (sendRequests rs s') := by
  obtain ⟨s', r, rs, hs', -, heq⟩ := exec_shape i s
  rw [h] at heq
  injection heq with ht
  exact ⟨s', r, rs, hs', ht⟩

/-- Settles O48: `exec_shape` gives the legal response, and writing engines and sending requests leave the other fields. -/
theorem oneLegalResponsePerCommand : Obligations.OneLegalResponsePerCommand := by
  intro i s
  obtain ⟨s', r, rs, hs', hr, heq⟩ := exec_shape i s
  refine ⟨_, r, heq, ?_, hr, ?_, ?_⟩
  · simp [hs'.responses_eq]
  · simp [hs'.ci_eq]
  · simp [hs'.hostInput_eq]

/-- Settles O11: a step delivers at most one response, behind those it finds. -/
theorem deliveredResponsesNeverChange : Obligations.DeliveredResponsesNeverChange := by
  intro s t h
  obtain ⟨-, rfl⟩ | ⟨c, rest, -, rfl⟩ | ⟨c, rest, w, -, -, rfl⟩ | ⟨c, rest, i, -, -, hx⟩ := step_cases h
  · exact List.prefix_rfl
  · exact List.prefix_rfl
  · exact List.prefix_append _ _
  · obtain ⟨s', r, rs, hs', rfl⟩ := exec_next_cases hx
    simp [hs'.responses_eq]

/-! ### Who writes an engine's registers -/

/-- Settles O57: the other engine is untouched, and of its own each command that writes keeps the register it does not load. -/
theorem keyAndIvHaveTheirWriters : Obligations.KeyAndIvHaveTheirWriters := by
  intro i s t e old new hx hold hnew
  obtain ⟨s', r, rs, hs', rfl⟩ := exec_next_cases hx
  rw [deliver_engine, sendRequests_engine] at hnew
  by_cases he : i.engine = e
  · subst he
    cases hs' with
    | kept =>
      obtain rfl : old = new := Option.some.inj (hold.symm.trans hnew)
      exact ⟨fun h => absurd rfl h, fun h => absurd rfl h⟩
    | constructed k v hf => exact ⟨fun _ => ⟨rfl, .inl hf⟩, fun _ => ⟨rfl, .inl hf⟩⟩
    | rekeyed inst k hf hs =>
      obtain rfl : inst = old := Option.some.inj (hs.symm.trans hold)
      obtain rfl : ⟨k, inst.iv⟩ = new := by simpa using hnew
      exact ⟨fun _ => ⟨rfl, .inr hf⟩, fun h => absurd rfl h⟩
    | newIv inst v hf hs =>
      obtain rfl : inst = old := Option.some.inj (hs.symm.trans hold)
      obtain rfl : ⟨inst.key, v⟩ = new := by simpa using hnew
      exact ⟨fun h => absurd rfl h, fun _ => ⟨rfl, .inr hf⟩⟩
  · rw [hs'.engine_other he, hold] at hnew
    obtain rfl : old = new := Option.some.inj hnew
    exact ⟨fun h => absurd rfl h, fun h => absurd rfl h⟩

/-- Settles O58: a command that keeps the engines is no successful `CONSTRUCT`, and `SET_KEY` and `SET_IV` write only an engine
that is constructed. -/
theorem constructedChangesOnlyByConstruct : Obligations.ConstructedChangesOnlyByConstruct := by
  intro i s t e hx
  obtain ⟨s', r, rs, hs', rfl⟩ := exec_next_cases hx
  rw [hx, answerOf_deliver hs'.responses_eq]
  simp only [State.constructed, deliver_engine, sendRequests_engine]
  by_cases he : i.engine = e
  · subst he
    cases hs' with
    | kept _ hr =>
      refine ⟨id, fun hs => ⟨fun h => ?_, ?_⟩⟩
      · simp [hs] at h
      · rintro ⟨-, hf, r', hr', hok⟩
        obtain rfl := Option.some.inj hr'
        exact absurd hf (hr hok)
    | constructed k v hf => simp [hf, okResponse]
    | rekeyed inst k hf hs => simp [hs]
    | newIv inst v hf hs => simp [hs]
  · rw [hs'.engine_other he]
    refine ⟨id, fun hs => ?_⟩
    simp [hs, he]

/-! ### A command's effect is a function of its own engine's configuration -/

/-- The engine written with a configuration, or left alone. -/
def State.updateEngine (s : State) (e : Engine) : Option EngineInstance → State
  | none => s
  | some inst => s.setEngine e inst

/-- What a command does from every state whose engine `e` holds `c` is one and the same: what is written to `e`, the response and
the requests depend on `c` alone. -/
def EffectFrom (e : Engine) (c : Option EngineInstance) (run : State → Result) : Prop :=
  ∃ w r rs, ∀ u : State, u.engine e = c → run u = .next (deliver r (sendRequests rs (u.updateEngine e w)))

/-- An error is such an effect: it writes nothing. -/
theorem EffectFrom.error {e : Engine} {c : Option EngineInstance} (x : CommandError) :
    EffectFrom e c fun u => .next (raise x u) :=
  ⟨none, errorResponse x, [], fun u _ => by simp [State.updateEngine]⟩

/-- A command behind the `CONSTRUCTED` check has such an effect when its body has one under every configuration. -/
theorem withInstance_effectFrom {e : Engine} {f : Func} {run : State → EngineInstance → Result}
    (h : ∀ inst, EffectFrom e (some inst) fun u => run u inst) (c : Option EngineInstance) :
    EffectFrom e c fun u => withInstance e f u (run u) := by
  cases c with
  | none =>
    obtain ⟨w, r, rs, hu⟩ := EffectFrom.error (e := e) (c := none) (.notConstructed (opByte e f))
    exact ⟨w, r, rs, fun u hc => (withInstance_none hc).trans (hu u hc)⟩
  | some inst =>
    obtain ⟨w, r, rs, hu⟩ := h inst
    exact ⟨w, r, rs, fun u hc => (withInstance_some hc).trans (hu u hc)⟩

section Unbounded
variable {P : Params} (h : P.bufCap = none)
include h

theorem construct_effectFrom (e : Engine) (a b : Bytes) (c : Option EngineInstance) :
    EffectFrom e c (construct P e a b) := by
  unfold construct
  simp only [withinCap_unbounded h]
  cases asBlock a with
  | none => exact .error _
  | some k =>
    cases asBlock b with
    | none => exact .error _
    | some v => exact ⟨some ⟨k, v⟩, _, _, fun _ _ => rfl⟩

theorem setKey_effectFrom (e : Engine) (a : Bytes) (c : Option EngineInstance) : EffectFrom e c (setKey P e a) := by
  unfold setKey
  simp only [withinCap_unbounded h]
  refine withInstance_effectFrom (fun inst => ?_) c
  cases asBlock a with
  | none => exact .error _
  | some k => exact ⟨some { inst with key := k }, _, _, fun _ _ => rfl⟩

theorem setIv_effectFrom (e : Engine) (a : Bytes) (c : Option EngineInstance) : EffectFrom e c (setIv P e a) := by
  unfold setIv
  simp only [withinCap_unbounded h]
  refine withInstance_effectFrom (fun inst => ?_) c
  cases asBlock a with
  | none => exact .error _
  | some v => exact ⟨some { inst with iv := v }, okResponse [], [], fun _ _ => by simp [State.updateEngine]⟩

theorem cbcEncrypt_effectFrom (a : Bytes) (c : Option EngineInstance) : EffectFrom .cbc c (cbcEncrypt P a) := by
  unfold cbcEncrypt
  simp only [withinCap_unbounded h]
  exact withInstance_effectFrom (fun inst => ⟨none, _, _, fun _ _ => rfl⟩) c

theorem cbcDecrypt_effectFrom (a : Bytes) (c : Option EngineInstance) : EffectFrom .cbc c (cbcDecrypt P a) := by
  unfold cbcDecrypt
  simp only [withinCap_unbounded h]
  refine withInstance_effectFrom (fun inst => ?_) c
  cases isCiphertextLength a.length with
  | false => exact .error _
  | true =>
    simp only [if_true]
    cases unpad P.padValidate ((chunks a).foldl (cbcDecBlock P inst.key) ⟨inst.iv, [], []⟩).out with
    | error x => exact ⟨none, _, _, fun _ _ => rfl⟩
    | ok out => exact ⟨none, _, _, fun _ _ => rfl⟩

theorem ctrData_effectFrom (f : Func) (a : Bytes) (c : Option EngineInstance) : EffectFrom .ctr c (ctrData P f a) := by
  unfold ctrData
  simp only [withinCap_unbounded h]
  exact withInstance_effectFrom (fun inst => ⟨none, _, _, fun _ _ => rfl⟩) c

/-- On a build without a bound the effect of every command is a function of its own engine's configuration (R32, R33). -/
theorem buildExec_effectFrom (i : Instr) (c : Option EngineInstance) : EffectFrom i.engine c (buildExec P i) := by
  cases i with
  | cbcConstruct a b => exact construct_effectFrom h .cbc a b c
  | cbcSetKey a => exact setKey_effectFrom h .cbc a c
  | cbcSetIv a => exact setIv_effectFrom h .cbc a c
  | cbcEncrypt a => exact cbcEncrypt_effectFrom h a c
  | cbcDecrypt a => exact cbcDecrypt_effectFrom h a c
  | ctrConstruct a b => exact construct_effectFrom h .ctr a b c
  | ctrSetKey a => exact setKey_effectFrom h .ctr a c
  | ctrSetIv a => exact setIv_effectFrom h .ctr a c
  | ctrEncrypt a => exact ctrData_effectFrom h .encrypt a c
  | ctrDecrypt a => exact ctrData_effectFrom h .decrypt a c

end Unbounded

/-- The effect of every command of this hardware is a function of its own engine's configuration (R32, R33). -/
theorem exec_effectFrom (i : Instr) (c : Option EngineInstance) : EffectFrom i.engine c (exec i) := by
  obtain ⟨w, r, rs, hu⟩ := buildExec_effectFrom (P := Config.hardware) rfl i c
  exact ⟨w, r, rs, fun u hc => (exec_eq_buildExec_arm i u).trans (hu u hc)⟩

/-! ### Nothing reads `ci` or the record of requests -/

/-- Two states that differ at most in `ci` and in the record of requests. -/
def SameButCounters (s t : State) : Prop := SameObservation s t ∧ s.hostInput = t.hostInput

section SameButCounters
variable {s t : State}

theorem SameButCounters.engine_eq (h : SameButCounters s t) (e : Engine) : s.engine e = t.engine e := by
  obtain ⟨⟨-, hcbc, hctr⟩, -⟩ := h
  cases e with
  | cbc => exact hcbc
  | ctr => exact hctr

theorem SameButCounters.setHostInput (h : SameButCounters s t) (rest : List HostEvent) :
    SameButCounters { s with hostInput := rest } { t with hostInput := rest } := ⟨h.1, rfl⟩

theorem SameButCounters.applyReset (h : SameButCounters s t) : SameButCounters (applyReset s) (applyReset t) := by
  obtain ⟨⟨hr, -, -⟩, hi⟩ := h
  exact ⟨⟨hr, rfl, rfl⟩, hi⟩

theorem SameButCounters.deliver (h : SameButCounters s t) (r : Response) :
    SameButCounters (deliver r s) (deliver r t) := by
  obtain ⟨⟨hr, hcbc, hctr⟩, hi⟩ := h
  exact ⟨⟨congrArg (· ++ [r]) hr, hcbc, hctr⟩, hi⟩

theorem SameButCounters.sendRequests (h : SameButCounters s t) (rs : List PrimRequest) :
    SameButCounters (sendRequests rs s) (sendRequests rs t) := h

theorem SameButCounters.updateEngine (h : SameButCounters s t) (e : Engine) (w : Option EngineInstance) :
    SameButCounters (s.updateEngine e w) (t.updateEngine e w) := by
  obtain ⟨⟨hr, hcbc, hctr⟩, hi⟩ := h
  cases w with
  | none => exact ⟨⟨hr, hcbc, hctr⟩, hi⟩
  | some inst =>
    cases e with
    | cbc => exact ⟨⟨hr, rfl, hctr⟩, hi⟩
    | ctr => exact ⟨⟨hr, hcbc, rfl⟩, hi⟩

/-- A command does the same from both, as its effect is a function of its engine's configuration. -/
theorem SameButCounters.exec_next (h : SameButCounters s t) {i : Instr} {s' t' : State}
    (hs : exec i s = .next s') (ht : exec i t = .next t') : SameButCounters s' t' := by
  obtain ⟨w, r, rs, hu⟩ := exec_effectFrom i (t.engine i.engine)
  obtain rfl := Host.Outcome.next.inj (hs.symm.trans (hu s (h.engine_eq _)))
  obtain rfl := Host.Outcome.next.inj (ht.symm.trans (hu t rfl))
  exact ((h.updateEngine _ w).sendRequests rs).deliver r

theorem SameButCounters.runCommand_next (h : SameButCounters s t) {c : Command} {s' t' : State}
    (hs : runCommand exec c s = .next s') (ht : runCommand exec c t = .next t') : SameButCounters s' t' := by
  unfold runCommand at hs ht
  cases hd : decode c with
  | error w =>
    simp only [hd] at hs ht
    obtain rfl := Host.Outcome.next.inj hs
    obtain rfl := Host.Outcome.next.inj ht
    exact h.deliver _
  | ok i =>
    simp only [hd] at hs ht
    exact h.exec_next hs ht

end SameButCounters

/-- Settles O55: both steps take the same event, and each kind of event does the same to both states. -/
theorem stepReadsOnlyTheObservation : Obligations.StepReadsOnlyTheObservation := by
  intro s t s' t' hobs hin hs ht
  have hst : SameButCounters s t := ⟨hobs, hin⟩
  show SameButCounters s' t'
  match hh : s.hostInput with
  | [] =>
    obtain rfl := Host.Outcome.next.inj ((step_of_idle hh).symm.trans hs)
    obtain rfl := Host.Outcome.next.inj ((step_of_idle (hin.symm.trans hh)).symm.trans ht)
    exact hst
  | .reset _ :: rest =>
    obtain rfl := Host.Outcome.next.inj ((step_of_reset hh).symm.trans hs)
    obtain rfl := Host.Outcome.next.inj ((step_of_reset (hin.symm.trans hh)).symm.trans ht)
    exact (hst.setHostInput rest).applyReset
  | .command c :: rest =>
    rw [step_of_command hh] at hs
    rw [step_of_command (hin.symm.trans hh)] at ht
    exact (hst.setHostInput rest).runCommand_next hs ht

/-! ### Big-endian bytes of any length -/

/-- The last `n` bytes of a number, the most significant first: what `be64_encode` is for `n = 8` (R85). -/
def beBytes : Nat → Nat → Bytes
  | 0, _ => []
  | n + 1, x => beBytes n (x / 256) ++ [BitVec.ofNat 8 x]

theorem beNat_append_singleton (bs : Bytes) (b : Byte) : beNat (bs ++ [b]) = beNat bs * 256 + b.toNat := by
  simp [beNat]

theorem beNat_beBytes (n x : Nat) : beNat (beBytes n x) = x % 256 ^ n := by
  induction n generalizing x with
  | zero => simp [beBytes, beNat, Nat.mod_one]
  | succ n ih =>
    rw [beBytes, beNat_append_singleton, ih, Nat.pow_succ', Nat.mod_mul, BitVec.toNat_ofNat]
    omega

theorem beBytes_beNat (bs : Bytes) : beBytes bs.length (beNat bs) = bs := by
  induction bs using List.reverseRecOn with
  | nil => rfl
  | append_singleton bs b ih =>
    have hb := b.isLt
    have hdiv : (beNat bs * 256 + b.toNat) / 256 = beNat bs := by omega
    have hlast : BitVec.ofNat 8 (beNat bs * 256 + b.toNat) = b := by
      apply BitVec.eq_of_toNat_eq
      rw [BitVec.toNat_ofNat]
      omega
    rw [List.length_append, List.length_singleton, beBytes, beNat_append_singleton, hdiv, hlast, ih]

/-- `n` bytes stand for a number below `256^n`. -/
theorem beNat_lt (bs : Bytes) : beNat bs < 256 ^ bs.length := by
  have hmod := beNat_beBytes bs.length (beNat bs)
  rw [beBytes_beNat] at hmod
  rw [hmod]
  exact Nat.mod_lt _ (by positivity)

/-! ### The IV as nonce and counter -/

theorem toList_be64Encode (c : U64) : (be64Encode c).toList = beBytes 8 c.toNat := by
  simp [be64Encode, beBytes, List.range_succ, BitVec.extractLsb', Nat.shiftRight_eq_div_pow, Nat.div_div_eq_div_mul]

@[simp] theorem toNat_be64Decode (h : Half) : (be64Decode h).toNat = beNat h.toList := by
  have hlt : beNat h.toList < 256 ^ 8 := by simpa only [h.length_eq] using beNat_lt h.toList
  rw [be64Decode, BitVec.toNat_ofNat]
  exact Nat.mod_eq_of_lt hlt

theorem be64Encode_be64Decode (h : Half) : be64Encode (be64Decode h) = h := by
  apply BytesN.eq_of_toList
  have hbytes := beBytes_beNat h.toList
  rw [h.length_eq] at hbytes
  rw [toList_be64Encode, toNat_be64Decode, hbytes]

theorem be64Decode_be64Encode (c : U64) : be64Decode (be64Encode c) = c := by
  apply BitVec.eq_of_toNat_eq
  rw [toNat_be64Decode, toList_be64Encode, beNat_beBytes]
  exact Nat.mod_eq_of_lt c.isLt

@[simp] theorem add64_zero (c : U64) : add64 c 0 = c := by simp [add64]

theorem toList_splitIv_nonce (v : Block) : (splitIv v).1.toList = v.toList.take 8 := rfl

theorem toList_be64Encode_splitIv_counter (v : Block) : (be64Encode (splitIv v).2).toList = v.toList.drop 8 := by
  rw [splitIv, be64Encode_be64Decode]
  show (v.toList.drop 8).take 8 = _
  exact List.take_of_length_le (by simp [v.length_eq])

/-- Putting the parts of an IV together gives the IV (R23, R150). -/
theorem counterBlock_splitIv (v : Block) : counterBlock (splitIv v).1 (splitIv v).2 = v := by
  apply BytesN.eq_of_toList
  rw [toList_counterBlock, toList_splitIv_nonce, toList_be64Encode_splitIv_counter, List.take_append_drop]

/-- Splitting a counter block gives the nonce and the counter it was made of (R88, R150). -/
theorem splitIv_counterBlock (n : Half) (c : U64) : splitIv (counterBlock n c) = (n, c) := by
  have hn : n.toList.length = 8 := n.length_eq
  have hc : (be64Encode c).toList.length = 8 := (be64Encode c).length_eq
  apply Prod.ext
  · apply BytesN.eq_of_toList
    rw [toList_splitIv_nonce, toList_counterBlock, List.take_left' hn]
  · have hcounter : (be64Encode (splitIv (counterBlock n c)).2) = be64Encode c := by
      apply BytesN.eq_of_toList
      rw [toList_be64Encode_splitIv_counter, toList_counterBlock, List.drop_left' hn]
    rw [← be64Decode_be64Encode (splitIv _).2, hcounter, be64Decode_be64Encode]

/-- Settles O38: the two laws of splitting, and block 0 adds 0 to the counter. -/
theorem splitIvRebuildsTheIv : Obligations.SplitIvRebuildsTheIv :=
  ⟨fun v => ⟨counterBlock_splitIv v, by rw [add64_zero, counterBlock_splitIv]⟩, splitIv_counterBlock⟩

end Sys2Proof.Machine
end

section
/-! SUPPORT and CERTIFICATE. The family 20_memory.md: the step at a pending command, a block packed into 128 bits, and the
capacity check of a build with a finite `BUF_CAP`. -/

namespace Sys2Proof.Machine

/-! ### The step at a pending command (R53, R54) -/

theorem runCommand_of_decode {c : Command} {i : Instr} (h : decode c = .ok i) (ex : Instr → State → Result) (s : State) :
    runCommand ex c s = ex i s := by simp [runCommand, h]

/-- Settles O5: the pending command is taken, and running it is running what it decodes to. -/
theorem stepRunsTheDecodedCommand : Obligations.StepRunsTheDecodedCommand := by
  intro s c rest i hpending hdecode
  rw [step_of_command hpending, runCommand_of_decode hdecode]

/-! ### A block packed into 128 bits (R45) -/

/-- The bytes in front weigh `256^n` when `n` bytes follow. -/
theorem beNat_append (as bs : Bytes) : beNat (as ++ bs) = beNat as * 256 ^ bs.length + beNat bs := by
  induction bs using List.reverseRecOn with
  | nil => simp [beNat]
  | append_singleton bs b ih =>
    rw [← List.append_assoc, beNat_append_singleton, beNat_append_singleton, ih, List.length_append, List.length_singleton,
      Nat.pow_succ]
    ring

@[simp] theorem toNat_pack128 (v : Block) : (pack128 v).toNat = beNat v.toList := by
  have hlt : beNat v.toList < 256 ^ 16 := by simpa only [v.length_eq] using beNat_lt v.toList
  rw [pack128, BitVec.toNat_ofNat]
  exact Nat.mod_eq_of_lt hlt

theorem toList_unpack128 (x : BitVec 128) : (unpack128 x).toList = beBytes 16 x.toNat := by
  simp [unpack128, beBytes, List.range_succ, BitVec.extractLsb', Nat.shiftRight_eq_div_pow, Nat.div_div_eq_div_mul]

theorem byteAt_unpack128 (x : BitVec 128) (j : Fin 16) : byteAt (unpack128 x) j = x.extractLsb' (120 - 8 * j.val) 8 := by
  simp [byteAt, unpack128]

theorem unpack128_pack128 (v : Block) : unpack128 (pack128 v) = v := by
  apply BytesN.eq_of_toList
  have hbytes := beBytes_beNat v.toList
  rw [v.length_eq] at hbytes
  rw [toList_unpack128, toNat_pack128, hbytes]

/-- An IV read as one number: the nonce above the 64 bits of the counter (R23). -/
theorem beNat_iv (v : Block) : beNat v.toList = beNat (splitIv v).1.toList * 256 ^ 8 + (splitIv v).2.toNat := by
  have hcounter : (splitIv v).2.toNat = beNat (be64Encode (splitIv v).2).toList := by
    rw [← toNat_be64Decode, be64Decode_be64Encode]
  conv_lhs => rw [← counterBlock_splitIv v, toList_counterBlock, beNat_append, (be64Encode _).length_eq]
  rw [hcounter]

theorem extractLsb'_pack128_counter (v : Block) : (pack128 v).extractLsb' 0 64 = (splitIv v).2 := by
  apply BitVec.eq_of_toNat_eq
  have hlt := (splitIv v).2.isLt
  rw [BitVec.extractLsb'_toNat, toNat_pack128, beNat_iv, Nat.shiftRight_zero]
  omega

/-- Settles O47: the bytes of an unpacked value are its bit slices, and unpacking undoes packing. -/
theorem packedIvHoldsTheCounter : Obligations.PackedIvHoldsTheCounter := by
  refine fun v => ⟨fun j => ?_, unpack128_pack128 v, extractLsb'_pack128_counter v⟩
  rw [← byteAt_unpack128, unpack128_pack128]

/-! ### A build with a finite `BUF_CAP` (R52) -/

theorem withinCap_true (P : Params) (n : Nat) (r : Result) : withinCap P true n r = r := by
  unfold withinCap
  cases P.bufCap <;> rfl

theorem withinCap_false {P : Params} {cap : Nat} (h : P.bufCap = some cap) (n : Nat) (r : Result) :
    withinCap P false n r = .refused (.overBufCap cap n) := by simp [withinCap, h]

/-- On any build a command is its meaning without a bound behind one capacity check, and that check is `wellFormed` (R52, log 8). -/
theorem buildExec_eq_withinCap (P : Params) (i : Instr) (s : State) :
    ∃ n, buildExec P i s = withinCap P (i.wellFormed P.bufCap) n (buildExec { P with bufCap := none } i s) := by
  cases i <;> exact ⟨_, rfl⟩

/-- An operand within the capacity pads to at most 16 bytes more. -/
theorem fitsPadded_of_fitsCap {cap n : Nat} (h : fitsCap (some cap) n = true) : fitsPadded (some cap) n = true := by
  simp only [fitsCap, fitsPadded, decide_eq_true_eq] at h ⊢
  omega

/-- A command is one of the build when both operands are within the capacity; the bound on the padded length adds nothing. -/
theorem wellFormed_iff (cap : Nat) (i : Instr) :
    i.wellFormed (some cap) = true ↔ i.operandA.length ≤ cap ∧ i.operandB.length ≤ cap := by
  cases i with
  | cbcEncrypt a =>
    have hpadded : fitsCap (some cap) a.length = true → fitsPadded (some cap) a.length = true := fitsPadded_of_fitsCap
    simpa [Instr.wellFormed, Instr.operandA, Instr.operandB, fitsCap] using hpadded
  | cbcConstruct | ctrConstruct | cbcSetKey | cbcSetIv | cbcDecrypt | ctrSetKey | ctrSetIv | ctrEncrypt | ctrDecrypt =>
    simp [Instr.wellFormed, Instr.operandA, Instr.operandB, fitsCap]

theorem wellFormed_eq_false_iff (cap : Nat) (i : Instr) :
    i.wellFormed (some cap) = false ↔ cap < i.operandA.length ∨ cap < i.operandB.length := by
  rw [← Bool.not_eq_true, wellFormed_iff]
  omega

/-- Settles O60: the one check in front of each command refuses or lets through, and a padded length over `BUF_CAP + 16` comes
from an operand over `BUF_CAP`. -/
theorem boundedBuildRefusesLongOperands : Obligations.BoundedBuildRefusesLongOperands := by
  intro P cap i s hcap
  obtain ⟨n, hexec⟩ := buildExec_eq_withinCap P i s
  rw [hcap] at hexec
  refine ⟨fun hwf => ⟨n, ?_⟩, fun hwf => ?_, fun ha hb => (wellFormed_iff cap i).mpr ⟨ha, hb⟩,
    (wellFormed_eq_false_iff cap i).mpr, ?_⟩
  · rw [hexec, hwf, withinCap_false hcap]
  · rw [hexec, hwf, withinCap_true]
  · rintro data rfl hlong
    have hover : cap < data.length := by omega
    exact (wellFormed_eq_false_iff cap (.cbcEncrypt data)).mpr (.inl hover)

end Sys2Proof.Machine
end

section
/-! SUPPORT and CERTIFICATE. The family 30_encoding.md: the command byte and its engine and operation determine each other, so
do a record in the host's form and its instruction; the invariant every step keeps; `CONSTRUCT` as `SET_KEY` and `SET_IV`. -/

namespace Sys2Proof

/-! ### The command byte is its three fields (R61, R62) -/

theorem opRsv_append_opEng_append_opFunc (op : Byte) : opRsv op ++ opEng op ++ opFunc op = op := by
  have hhigh : opRsv op ++ opEng op = op.extractLsb' 4 4 := BitVec.extractLsb'_append_extractLsb'_eq_extractLsb' rfl
  calc opRsv op ++ opEng op ++ opFunc op
    _ = op.extractLsb' 4 4 ++ op.extractLsb' 0 4 := congrArg (· ++ opFunc op) hhigh
    _ = op.extractLsb' 0 8 := BitVec.extractLsb'_append_extractLsb'_eq_extractLsb' rfl
    _ = op := BitVec.extractLsb'_eq_self

theorem engBit_decodeEng : ∀ b : BitVec 1, engBit (decodeEng b) = b := by decide

/-- The operation read from a `FUNC` code has that code. -/
theorem funcCode_of_decodeFunc {f : Func} : ∀ {c : BitVec 4}, decodeFunc c = some f → funcCode f = c := by
  cases f <;> decide

/-- The codes `0x5` to `0xF` are reserved, and only those (R62). -/
theorem decodeFunc_eq_none_iff : ∀ c : BitVec 4, decodeFunc c = none ↔ 5 ≤ c.toNat := by decide

/-- A byte is rejected by `RSV` or by `FUNC` (R66). -/
theorem exists_decodeOp_error_iff (op : Byte) :
    (∃ w, decodeOp op = .error w) ↔ opRsv op ≠ 0#3 ∨ 5 ≤ (opFunc op).toNat := by
  rw [← decodeFunc_eq_none_iff, decodeOp]
  by_cases hrsv : opRsv op = 0#3
  · cases hfunc : decodeFunc (opFunc op) <;> simp [hrsv]
  · simp [hrsv]

/-- A byte decodes to an engine and an operation exactly when it is the byte `000 ENG FUNC` of the two. -/
theorem decodeOp_eq_ok_iff {op : Byte} {e : Engine} {f : Func} : decodeOp op = .ok (e, f) ↔ opByte e f = op := by
  constructor
  · intro h
    rw [decodeOp] at h
    by_cases hrsv : opRsv op = 0#3
    · cases hfunc : decodeFunc (opFunc op) with
      | none => simp [hrsv, hfunc] at h
      | some g =>
        obtain ⟨rfl, rfl⟩ : decodeEng (opEng op) = e ∧ g = f := by simpa [hrsv, hfunc] using h
        rw [opByte, ← hrsv, engBit_decodeEng, funcCode_of_decodeFunc hfunc, opRsv_append_opEng_append_opFunc]
    · simp [hrsv] at h
  · rintro rfl
    exact decodeOp_opByte e f

theorem exists_decodeOp_error_iff_forall_opByte_ne (op : Byte) :
    (∃ w, decodeOp op = .error w) ↔ ∀ e f, opByte e f ≠ op := by
  simp only [← decodeOp_eq_ok_iff, ne_eq]
  cases decodeOp op with
  | error w => simp
  | ok ef => simpa using ⟨ef.1, ef.2, rfl⟩

/-! ### A record in the host's form and its instruction (R60 to R64) -/

theorem decode_eq_error_iff {c : Command} {w : Reserved} : decode c = .error w ↔ decodeOp c.op = .error w := by
  rw [decode]
  cases decodeOp c.op <;> simp

theorem decode_eq_ok_iff {c : Command} {i : Instr} :
    decode c = .ok i ↔ ∃ e f, decodeOp c.op = .ok (e, f) ∧ assemble e f c.a c.b = i := by
  rw [decode]
  cases decodeOp c.op with
  | error w => simp
  | ok ef => obtain ⟨e, f⟩ := ef; simp

/-- The command byte of an engine and an operation, with any operands, decodes to their command. -/
theorem decode_opByte (e : Engine) (f : Func) (a b : Bytes) : decode ⟨opByte e f, a, b⟩ = .ok (assemble e f a b) :=
  decode_record (decodeOp_opByte e f) a b

theorem decode_encode (i : Instr) : decode (encode i) = .ok i := by
  rw [encode, decode_opByte, assemble_parts]

/-- The record of an assembled instruction: what it was assembled from, when no `B` stands beside a K1 operation. -/
theorem encode_assemble {e : Engine} {f : Func} {b : Bytes} (a : Bytes) (h : f.format = .k2 ∨ b = []) :
    encode (assemble e f a b) = ⟨opByte e f, a, b⟩ := by
  cases f with
  | construct => cases e <;> rfl
  | setKey | setIv | encrypt | decrypt =>
    obtain rfl : b = [] := h.resolve_left (by decide)
    cases e <;> rfl

/-- The form the host sends: K2, or no `B` (R60). -/
theorem canonical_iff {c : Command} {e : Engine} {f : Func} (h : decodeOp c.op = .ok (e, f)) :
    c.canonical = true ↔ f.format = .k2 ∨ c.b = [] := by
  simp [Command.canonical, h]

theorem encode_of_decode {c : Command} {i : Instr} (hc : c.canonical = true) (h : decode c = .ok i) : encode i = c := by
  obtain ⟨e, f, hop, rfl⟩ := decode_eq_ok_iff.mp h
  rw [encode_assemble c.a ((canonical_iff hop).mp hc), decodeOp_eq_ok_iff.mp hop]

/-- Settles O3: decoding undoes encoding, and a record in the host's form is rebuilt from its byte and its operands. -/
theorem decodeEncodeAgree : Obligations.DecodeEncodeAgree := by
  refine ⟨fun i => ⟨decode_encode i, encode_canonical i⟩, fun c i hc => ⟨encode_of_decode hc, ?_⟩⟩
  rintro rfl
  exact decode_encode i

/-- Settles O1: each of the ten bytes is the `opByte` of its engine and operation. -/
theorem opcodeMapWordsDecode : Obligations.OpcodeMapWordsDecode := fun a b =>
  ⟨decode_opByte .cbc .construct a b, decode_opByte .cbc .setKey a b, decode_opByte .cbc .setIv a b,
    decode_opByte .cbc .encrypt a b, decode_opByte .cbc .decrypt a b, decode_opByte .ctr .construct a b,
    decode_opByte .ctr .setKey a b, decode_opByte .ctr .setIv a b, decode_opByte .ctr .encrypt a b,
    decode_opByte .ctr .decrypt a b⟩

/-! ### The opcode map (R63) -/

/-- Each row asks for the whole byte of its engine and operation. -/
theorem opcodeTable_mask_pat : ∀ r ∈ opcodeTable, r.mask = 0xFF ∧ r.pat = opByte r.engine r.func := by decide

theorem opcodeTable_pat_nodup : (opcodeTable.map OpRow.pat).Nodup := by decide

/-- Every operation of every engine has a row. -/
theorem exists_row (e : Engine) (f : Func) : ∃ r ∈ opcodeTable, r.engine = e ∧ r.func = f := by
  cases e <;> cases f <;> simp [opcodeTable]

theorem OpRow.selects_iff {r : OpRow} (hr : r ∈ opcodeTable) (op : Byte) :
    r.selects op = true ↔ opByte r.engine r.func = op := by
  obtain ⟨hmask, hpat⟩ := opcodeTable_mask_pat r hr
  have hand : op &&& 0xFF = op := BitVec.and_allOnes
  rw [OpRow.selects, hmask, hpat, hand, beq_iff_eq, eq_comm]

/-- No row selects a byte exactly when no engine and operation have it. -/
theorem forall_row_selects_eq_false_iff (op : Byte) :
    (∀ r ∈ opcodeTable, r.selects op = false) ↔ ∀ e f, opByte e f ≠ op := by
  constructor
  · intro h e f hop
    obtain ⟨r, hr, rfl, rfl⟩ := exists_row e f
    have hsel := (OpRow.selects_iff hr op).mpr hop
    simp [h r hr] at hsel
  · intro h r hr
    rw [← Bool.not_eq_true, OpRow.selects_iff hr]
    exact h r.engine r.func

/-- Settles O2: a row selects just the byte of its engine and operation, and the rows have different bytes. -/
theorem decoderFollowsTheOpcodeMap : Obligations.DecoderFollowsTheOpcodeMap := by
  intro op a b
  simp only [decode_eq_error_iff]
  refine ⟨fun r hr hsel => ?_, fun r hr r' hr' hsel hsel' => ?_,
    (exists_decodeOp_error_iff_forall_opByte_ne op).trans (forall_row_selects_eq_false_iff op).symm,
    exists_decodeOp_error_iff op⟩
  · rw [← (OpRow.selects_iff hr op).mp hsel, decode_opByte]
  · rw [OpRow.selects_iff hr, ← (opcodeTable_mask_pat r hr).2] at hsel
    rw [OpRow.selects_iff hr', ← (opcodeTable_mask_pat r' hr').2] at hsel'
    exact List.inj_on_of_nodup_map opcodeTable_pat_nodup hr hr' (hsel.trans hsel'.symm)

namespace Machine

/-! ### The invariant -/

/-- The invariant reads the responses and `ci` alone. -/
theorem Inv.of_eq {s t : State} (h : Inv s) (hci : t.ci = s.ci) (hresp : t.responses = s.responses) : Inv t :=
  ⟨by rw [hci, hresp]; exact h.answered, by rw [hresp]; exact h.legal⟩

/-- A command answered with a legal response (R65, R199). -/
theorem Inv.deliver {s : State} (h : Inv s) {r : Response} (hr : r.Legal) : Inv (deliver r s) where
  answered := by simpa using h.answered
  legal x hx := by
    rw [deliver_responses, List.mem_append, List.mem_singleton] at hx
    obtain hx | rfl := hx
    · exact h.legal x hx
    · exact hr

/-- After a reset no command is counted, and the responses given before it stay (R220, log 11). -/
theorem Inv.applyReset {s : State} (h : Inv s) : Inv (applyReset s) := ⟨Nat.zero_le _, h.legal⟩

theorem Inv.exec_next {i : Instr} {s t : State} (h : Inv s) (hx : exec i s = .next t) : Inv t := by
  obtain ⟨s', r, rs, hs', hr, heq⟩ := exec_shape i s
  obtain rfl := Host.Outcome.next.inj (hx.symm.trans heq)
  exact (h.of_eq hs'.ci_eq hs'.responses_eq : Inv (sendRequests rs s')).deliver hr

/-- The answer to a reserved byte is legal (R197). -/
theorem illegalCommand_legal {c : Command} {w : Reserved} (h : decode c = .error w) :
    (errorResponse (.illegalCommand c.op)).Legal := ⟨rfl, w, decode_eq_error_iff.mp h⟩

/-- Settles O12: waiting and reset add no response, and a command, reserved or not, adds one that is legal. -/
theorem stepKeepsTheInvariant : Obligations.StepKeepsTheInvariant := by
  intro s t hs h
  have htaken (rest : List HostEvent) : Inv { s with hostInput := rest } := hs.of_eq rfl rfl
  obtain ⟨-, rfl⟩ | ⟨c, rest, -, rfl⟩ | ⟨c, rest, w, -, hd, rfl⟩ | ⟨c, rest, i, -, -, hx⟩ := step_cases h
  · exact hs
  · exact (htaken rest).applyReset
  · exact (htaken rest).deliver (illegalCommand_legal hd)
  · exact (htaken rest).exec_next hx

/-! ### What the configuration commands do to the state (R100 to R105) -/

section Unbounded
variable {P : Params} (h : P.bufCap = none)
include h

theorem construct_of_lengths (e : Engine) {a b : Bytes} (ha : a.length = 16) (hb : b.length = 16) (s : State) :
    construct P e a b s =
      .next (deliver (okResponse []) (sendRequests [.init ⟨a, ha⟩] (s.setEngine e ⟨⟨a, ha⟩, ⟨b, hb⟩⟩))) := by
  simp [construct, withinCap_unbounded h, asBlock_of_length ha, asBlock_of_length hb]

/-- The key is checked before the IV (R198). -/
theorem construct_of_bad_key (e : Engine) {a : Bytes} (ha : a.length ≠ 16) (b : Bytes) (s : State) :
    construct P e a b s = .next (deliver (errorResponse .badKeyLength) s) := by
  simp [construct, withinCap_unbounded h, asBlock_of_length_ne ha]

theorem construct_of_bad_iv (e : Engine) {a b : Bytes} (ha : a.length = 16) (hb : b.length ≠ 16) (s : State) :
    construct P e a b s = .next (deliver (errorResponse .badIvLength) s) := by
  simp [construct, withinCap_unbounded h, asBlock_of_length ha, asBlock_of_length_ne hb]

theorem setKey_of_length {e : Engine} {a : Bytes} {s : State} {inst : EngineInstance} (hs : s.engine e = some inst)
    (ha : a.length = 16) :
    setKey P e a s =
      .next (deliver (okResponse []) (sendRequests [.init ⟨a, ha⟩] (s.setEngine e ⟨⟨a, ha⟩, inst.iv⟩))) := by
  simp [setKey, withinCap_unbounded h, withInstance_some hs, asBlock_of_length ha]

theorem setIv_of_length {e : Engine} {a : Bytes} {s : State} {inst : EngineInstance} (hs : s.engine e = some inst)
    (ha : a.length = 16) :
    setIv P e a s = .next (deliver (okResponse []) (s.setEngine e ⟨inst.key, ⟨a, ha⟩⟩)) := by
  simp [setIv, withinCap_unbounded h, withInstance_some hs, asBlock_of_length ha]

/-- On a constructed engine, `CONSTRUCT` leaves the engines as `SET_KEY` and then `SET_IV` do (R110). -/
theorem construct_engines_eq_setKey_setIv {e : Engine} {a b : Bytes} {s : State} (hs : s.engine e ≠ none)
    (ha : a.length = 16) (hb : b.length = 16) :
    ∃ t u w, construct P e a b s = .next t ∧ setKey P e a s = .next u ∧ setIv P e b u = .next w ∧
      t.cbc = w.cbc ∧ t.ctr = w.ctr := by
  obtain ⟨inst, hinst⟩ := Option.ne_none_iff_exists'.mp hs
  refine ⟨_, _, _, construct_of_lengths h e ha hb s, setKey_of_length h hinst ha,
    setIv_of_length h (inst := ⟨⟨a, ha⟩, inst.iv⟩) (by simp) hb, ?_⟩
  cases e <;> exact ⟨rfl, rfl⟩

/-- With a bad operand, `CONSTRUCT` writes neither register of either engine (R107). -/
theorem construct_engines_of_bad_operand (e : Engine) {a b : Bytes} (hbad : a.length ≠ 16 ∨ b.length ≠ 16) (s : State) :
    ∃ t, construct P e a b s = .next t ∧ t.cbc = s.cbc ∧ t.ctr = s.ctr := by
  by_cases ha : a.length = 16
  · exact ⟨_, construct_of_bad_iv h e ha (hbad.resolve_left (not_not_intro ha)) s, rfl, rfl⟩
  · exact ⟨_, construct_of_bad_key h e ha b s, rfl, rfl⟩

end Unbounded

/-- Settles O20: the two laws of `construct`, for the hardware and each engine. -/
theorem constructIsSetKeyThenSetIv : Obligations.ConstructIsSetKeyThenSetIv := by
  refine fun a b s => ⟨construct_engines_eq_setKey_setIv (P := Config.hardware) (e := .cbc) rfl,
    construct_engines_eq_setKey_setIv (P := Config.hardware) (e := .ctr) rfl, fun hbad => ?_⟩
  obtain ⟨t, ht, htcbc, htctr⟩ := construct_engines_of_bad_operand (P := Config.hardware) rfl .cbc hbad s
  obtain ⟨u, hu, hucbc, huctr⟩ := construct_engines_of_bad_operand (P := Config.hardware) rfl .ctr hbad s
  exact ⟨t, u, ht, hu, htcbc, htctr, hucbc, huctr⟩

end Machine
end Sys2Proof
end

section
/-! SUPPORT and CERTIFICATE. The family 40_shared_utilities.md: the XOR lane by lane, the blocks of a buffer, the big-endian
bytes of a counter and the counter blocks. -/

namespace Sys2Proof.Machine

/-! ### Sequences of a fixed length by their bytes -/

theorem toList_eq_ofFn {n : Nat} (v : BytesN n) : v.toList = List.ofFn (byteAt v) :=
  List.ext_getElem (by simp [v.length_eq]) (by simp [byteAt])

/-- A sequence is one byte repeated exactly when that byte stands at every index. -/
theorem toList_eq_replicate_iff {n : Nat} {v : BytesN n} {x : Byte} :
    v.toList = List.replicate n x ↔ ∀ j, byteAt v j = x := by
  rw [toList_eq_ofFn, List.eq_replicate_iff]
  simp

/-! ### XOR (R80, R81, R89) -/

@[simp] theorem byteAt_xor16 (a b : Block) (j : Fin 16) : byteAt (xor16 a b) j = byteAt a j ^^^ byteAt b j := by
  simp [byteAt]

theorem xor16_comm (a b : Block) : xor16 a b = xor16 b a :=
  eq_of_byteAt fun j => by simp only [byteAt_xor16, BitVec.xor_comm]

theorem xor16_assoc (a b c : Block) : xor16 (xor16 a b) c = xor16 a (xor16 b c) :=
  eq_of_byteAt fun j => by simp only [byteAt_xor16, BitVec.xor_assoc]

/-- XOR with the same block twice gives the bytes back, for as many bytes as the block has. -/
theorem xorn_cancel {a : Bytes} (b : Block) (h : a.length ≤ 16) : xorn (xorn a b) b = a :=
  zipWith_xor_cancel a b.toList (by rwa [b.length_eq])

theorem toNat_xor_allOnes (x : Byte) : (x ^^^ 0xFF).toNat = 255 - x.toNat := by
  have hnot : x ^^^ 0xFF = ~~~x := BitVec.xor_allOnes
  rw [hnot, BitVec.toNat_not]

/-- Settles O40: each corner case is read off the lanes. -/
theorem xor16WorksByLanes : Obligations.Xor16WorksByLanes := by
  refine fun a b j => ⟨byteAt_xor16 a b j, fun hzero => eq_of_byteAt fun k => ?_,
    toList_eq_replicate_iff.mpr fun k => ?_, fun hones => ?_⟩
  · rw [byteAt_xor16, toList_eq_replicate_iff.mp hzero]
    exact BitVec.xor_zero
  · rw [byteAt_xor16]
    exact BitVec.xor_self
  · rw [byteAt_xor16, toList_eq_replicate_iff.mp hones, toNat_xor_allOnes]

/-- Settles O41: the laws of each lane. -/
theorem xorLaws : Obligations.XorLaws :=
  ⟨xor16_comm, xor16_assoc, xor16_cancel, fun _ b h => xorn_cancel b h⟩

/-- Padding a short block only appends. -/
theorem toList_zeroPad {a : Bytes} (h : a.length ≤ 16) :
    (zeroPad a).toList = a ++ List.replicate (16 - a.length) 0x00 :=
  List.take_of_length_le (by simp; omega)

/-- `xorn` does not use the bytes of the block beyond the length of the short block (R81). -/
theorem xorn_eq_take {a : Bytes} (b : Block) (h : a.length ≤ 16) :
    xorn a b = List.zipWith (· ^^^ ·) a (b.toList.take a.length) := by
  rw [xorn, List.zipWith_eq_zipWith_take_min, b.length_eq, Nat.min_eq_left h, List.take_length]

/-- Settles O39: cutting the full XOR cuts its two operands, and the padded one is cut back to the short block. -/
theorem shortBlockIsACutFullBlock : Obligations.ShortBlockIsACutFullBlock := by
  refine fun a b h => ⟨?_, by rw [length_xorn, Nat.min_eq_left h]⟩
  rw [xorn_eq_take b h, toList_xor16, List.take_zipWith, toList_zeroPad h, List.take_left]

/-! ### Chunking (R82, R83) -/

theorem getElem?_block (s : Bytes) (k : Nat) {j : Nat} (h : j < 16) : (block s k)[j]? = s[16 * k + j]? := by
  rw [block_eq, List.getElem?_take_of_lt h, List.getElem?_drop]

/-- The first `n` blocks one after another are the first `16n` bytes. -/
theorem flatMap_block_range (s : Bytes) (n : Nat) : (List.range n).flatMap (block s) = s.take (16 * n) := by
  induction n with
  | zero => rfl
  | succ n ih => simp [List.range_succ, ih, block_eq, Nat.mul_succ, List.take_add]

/-- The blocks counted by `nblocks_ceil` reach the end of the buffer. -/
theorem le_nblocksCeil (n : Nat) : n ≤ 16 * nblocksCeil n := by
  simp only [nblocksCeil]; omega

/-- Settles O42: the counts are arithmetic, a block is a slice, and the slices together are the whole buffer. -/
theorem blocksPartitionTheBuffer : Obligations.BlocksPartitionTheBuffer := by
  rintro s n rfl
  refine ⟨?_, fun hwhole => ⟨?_, rfl⟩, ?_, fun k _ => ⟨length_block s k, fun j hj => getElem?_block s k hj⟩, ?_⟩
  · simp only [nblocksCeil]; omega
  · simp only [nblocksCeil]; omega
  · simp only [nblocksCeil]; omega
  · rw [flatMap_block_range, List.take_of_length_le (le_nblocksCeil _)]

/-! ### Big-endian counter bytes (R84, R85, R86) -/

theorem toList_half (h : Half) :
    h.toList = [byteAt h 0, byteAt h 1, byteAt h 2, byteAt h 3, byteAt h 4, byteAt h 5, byteAt h 6, byteAt h 7] := by
  rw [toList_eq_ofFn]
  rfl

/-- Settles O43: the eight bytes read as digits to the base 256. -/
theorem be64DecodeIsBigEndian : Obligations.Be64DecodeIsBigEndian := by
  intro h
  rw [toNat_be64Decode, toList_half, beNat]
  simp only [List.foldl_cons, List.foldl_nil]
  omega

theorem byteAt_be64Encode (c : U64) (j : Fin 8) : byteAt (be64Encode c) j = c.extractLsb' (56 - 8 * j.val) 8 := by
  simp [byteAt, be64Encode]

/-- Settles O44: a slice of bits is a quotient and a remainder by powers of two. -/
theorem be64EncodeIsBigEndian : Obligations.Be64EncodeIsBigEndian := by
  refine fun c j => ⟨?_, byteAt_be64Encode c j⟩
  have hshift : 56 - 8 * j.val = 8 * (7 - j.val) := by omega
  rw [byteAt_be64Encode, BitVec.extractLsb'_toNat, Nat.shiftRight_eq_div_pow, hshift]

/-- Settles O45: the two directions. -/
theorem be64DecodeEncodeInverse : Obligations.Be64DecodeEncodeInverse :=
  ⟨be64Decode_be64Encode, be64Encode_be64Decode⟩

theorem beNat_be64Encode (c : U64) : beNat (be64Encode c).toList = c.toNat := by
  rw [← toNat_be64Decode, be64Decode_be64Encode]

/-! ### The counter and the counter blocks (R87, R88, R151) -/

/-- Adding twice adds the sum. -/
theorem add64_add64 (c : U64) (i j : Nat) : add64 (add64 c i) j = add64 c (i + j) := by
  apply BitVec.eq_of_toNat_eq
  rw [toNat_add64, toNat_add64, toNat_add64, Nat.mod_add_mod, Nat.add_assoc]

theorem add64_modulus (c : U64) : add64 c (2 ^ 64) = c := by
  apply BitVec.eq_of_toNat_eq
  rw [toNat_add64, Nat.add_mod_right, Nat.mod_eq_of_lt c.isLt]

/-- Settles O46: the step law is a sum of two additions, and the wrap is at the modulus. -/
theorem add64WrapsSilently : Obligations.Add64WrapsSilently :=
  ⟨fun c i => ⟨toNat_add64 c i, (add64_add64 c i 1).symm, add64_zero c, add64_modulus c⟩, by decide⟩

theorem toList_counterBlockAt_take (v : Block) (i : Nat) : (counterBlockAt v i).toList.take 8 = v.toList.take 8 := by
  rw [counterBlockAt, toList_counterBlock, List.take_left' (splitIv v).1.length_eq, toList_splitIv_nonce]

theorem beNat_counterBlockAt_drop (v : Block) (i : Nat) :
    beNat ((counterBlockAt v i).toList.drop 8) = ((splitIv v).2.toNat + i) % 2 ^ 64 := by
  rw [counterBlockAt, toList_counterBlock, List.drop_left' (splitIv v).1.length_eq, beNat_be64Encode, toNat_add64]

theorem toNat_splitIv_counter (v : Block) : (splitIv v).2.toNat = beNat (v.toList.drop 8) := by
  rw [← beNat_be64Encode, toList_be64Encode_splitIv_counter]

/-- Settles O37: the nonce half is the IV's, and the counter half is `add64` of the IV's counter. -/
theorem counterWrapKeepsTheNonce : Obligations.CounterWrapKeepsTheNonce := by
  refine fun v i h => ⟨toList_counterBlockAt_take v i, ?_⟩
  rw [toNat_be64Decode ⟨_, h⟩, ← toNat_splitIv_counter v]
  exact beNat_counterBlockAt_drop v i

end Sys2Proof.Machine
end

section
/-! SUPPORT and CERTIFICATE. The family 41_config_commands.md: the remaining outcomes of `SET_KEY` and `SET_IV`, the IV's two
halves, and that a loaded configuration decides what the data commands answer. -/

namespace Sys2Proof.Machine

/-! ### Results and frames (R100 to R105)

The state operations are record updates, so a result written with `deliver`, `sendRequests` and `setEngine` is, by
definition, the next state with exactly the listed fields changed. -/

section Unbounded
variable {P : Params} (h : P.bufCap = none)
include h

/-- `NotConstructed` comes before the length check (R102, R198). -/
theorem setKey_of_not_constructed {e : Engine} {s : State} (hs : s.engine e = none) (a : Bytes) :
    setKey P e a s = .next (deliver (errorResponse (.notConstructed (opByte e .setKey))) s) := by
  rw [setKey, withinCap_unbounded h, withInstance_none hs]

theorem setKey_of_bad_length {e : Engine} {a : Bytes} {s : State} {inst : EngineInstance} (hs : s.engine e = some inst)
    (ha : a.length ≠ 16) : setKey P e a s = .next (deliver (errorResponse .badKeyLength) s) := by
  simp [setKey, withinCap_unbounded h, withInstance_some hs, asBlock_of_length_ne ha]

/-- `NotConstructed` comes before the length check (R104, R198). -/
theorem setIv_of_not_constructed {e : Engine} {s : State} (hs : s.engine e = none) (a : Bytes) :
    setIv P e a s = .next (deliver (errorResponse (.notConstructed (opByte e .setIv))) s) := by
  rw [setIv, withinCap_unbounded h, withInstance_none hs]

theorem setIv_of_bad_length {e : Engine} {a : Bytes} {s : State} {inst : EngineInstance} (hs : s.engine e = some inst)
    (ha : a.length ≠ 16) : setIv P e a s = .next (deliver (errorResponse .badIvLength) s) := by
  simp [setIv, withinCap_unbounded h, withInstance_some hs, asBlock_of_length_ne ha]

end Unbounded

/-- Settles O14: the four outcomes of `construct` on the CBC engine. -/
theorem cbcConstructLoadsKeyAndIv : Obligations.CbcConstructLoadsKeyAndIv := fun a b s =>
  ⟨decode_opByte .cbc .construct a b,
    fun ha hb => construct_of_lengths (P := Config.hardware) rfl .cbc ha hb s,
    fun ha => construct_of_bad_key (P := Config.hardware) rfl .cbc ha b s,
    fun ha hb => construct_of_bad_iv (P := Config.hardware) rfl .cbc ha hb s⟩

/-- Settles O15: the four outcomes of `construct` on the CTR engine. -/
theorem ctrConstructLoadsKeyAndIv : Obligations.CtrConstructLoadsKeyAndIv := fun a b s =>
  ⟨decode_opByte .ctr .construct a b,
    fun ha hb => construct_of_lengths (P := Config.hardware) rfl .ctr ha hb s,
    fun ha => construct_of_bad_key (P := Config.hardware) rfl .ctr ha b s,
    fun ha hb => construct_of_bad_iv (P := Config.hardware) rfl .ctr ha hb s⟩

/-- Settles O16: the three outcomes of `setKey` on the CBC engine. -/
theorem cbcSetKeyReplacesTheKey : Obligations.CbcSetKeyReplacesTheKey := fun a _ =>
  ⟨decode_opByte .cbc .setKey a [],
    fun hs => setKey_of_not_constructed (P := Config.hardware) (e := .cbc) rfl hs a,
    fun _ hs ha => setKey_of_bad_length (P := Config.hardware) (e := .cbc) rfl hs ha,
    fun _ ha hs => setKey_of_length (P := Config.hardware) (e := .cbc) rfl hs ha⟩

/-- Settles O17: the three outcomes of `setKey` on the CTR engine. -/
theorem ctrSetKeyReplacesTheKey : Obligations.CtrSetKeyReplacesTheKey := fun a _ =>
  ⟨decode_opByte .ctr .setKey a [],
    fun hs => setKey_of_not_constructed (P := Config.hardware) (e := .ctr) rfl hs a,
    fun _ hs ha => setKey_of_bad_length (P := Config.hardware) (e := .ctr) rfl hs ha,
    fun _ ha hs => setKey_of_length (P := Config.hardware) (e := .ctr) rfl hs ha⟩

/-- Settles O18: the three outcomes of `setIv` on the CBC engine. -/
theorem cbcSetIvReplacesTheIv : Obligations.CbcSetIvReplacesTheIv := fun a _ =>
  ⟨decode_opByte .cbc .setIv a [],
    fun hs => setIv_of_not_constructed (P := Config.hardware) (e := .cbc) rfl hs a,
    fun _ hs ha => setIv_of_bad_length (P := Config.hardware) (e := .cbc) rfl hs ha,
    fun _ ha hs => setIv_of_length (P := Config.hardware) (e := .cbc) rfl hs ha⟩

/-- The initial counter is read from the last eight bytes of the IV (R23, R105). -/
theorem splitIv_counter (v : Block) (hd : (v.toList.drop 8).length = 8) :
    (splitIv v).2 = be64Decode ⟨v.toList.drop 8, hd⟩ :=
  congrArg be64Decode (BytesN.eq_of_toList (List.take_of_length_le hd.le))

/-- Settles O19: the three outcomes of `setIv` on the CTR engine, and the two halves of the IV. -/
theorem ctrSetIvReplacesTheIv : Obligations.CtrSetIvReplacesTheIv := fun a _ =>
  ⟨decode_opByte .ctr .setIv a [],
    fun hs => setIv_of_not_constructed (P := Config.hardware) (e := .ctr) rfl hs a,
    fun _ hs ha => setIv_of_bad_length (P := Config.hardware) (e := .ctr) rfl hs ha,
    fun _ ha hs => setIv_of_length (P := Config.hardware) (e := .ctr) rfl hs ha,
    fun ha hd => ⟨toList_splitIv_nonce ⟨a, ha⟩, splitIv_counter ⟨a, ha⟩ hd⟩⟩

/-! ### A loaded configuration decides what the data commands answer (R106, R109) -/

@[simp] theorem updateEngine_responses (s : State) (e : Engine) (w : Option EngineInstance) :
    (s.updateEngine e w).responses = s.responses := by
  cases w with
  | none => rfl
  | some inst => exact setEngine_responses s inst e

/-- The answer to a command is a function of its own engine's configuration (R32). -/
theorem answerOf_exec_congr {i : Instr} {s t : State} (h : s.engine i.engine = t.engine i.engine) :
    answerOf s (exec i s) = answerOf t (exec i t) := by
  obtain ⟨w, r, rs, hu⟩ := exec_effectFrom i (t.engine i.engine)
  calc answerOf s (exec i s)
      = some r := by rw [hu s h]; exact answerOf_deliver (updateEngine_responses ..)
    _ = answerOf t (exec i t) := by rw [hu t rfl]; exact (answerOf_deliver (updateEngine_responses ..)).symm

theorem sameDataAnswers_of_engine_eq {e : Engine} {t u : State} (h : t.engine e = u.engine e) : sameDataAnswers e t u := by
  rintro i rfl -
  exact answerOf_exec_congr h

section InForce
variable {e : Engine} {s u : State} {inst : EngineInstance} {k : Key} {v : Block}

theorem construct_in_force (s : State) (hu : u.engine e = some ⟨k, v⟩) :
    ∃ t, construct Config.hardware e k.toList v.toList s = .next t ∧ sameDataAnswers e t u :=
  ⟨_, construct_of_lengths rfl e k.length_eq v.length_eq s, sameDataAnswers_of_engine_eq (by simp [hu])⟩

theorem setKey_in_force (hs : s.engine e = some inst) (hu : u.engine e = some ⟨k, inst.iv⟩) :
    ∃ t, setKey Config.hardware e k.toList s = .next t ∧ sameDataAnswers e t u :=
  ⟨_, setKey_of_length rfl hs k.length_eq, sameDataAnswers_of_engine_eq (by simp [hu])⟩

theorem setIv_in_force (hs : s.engine e = some inst) (hu : u.engine e = some ⟨inst.key, v⟩) :
    ∃ t, setIv Config.hardware e v.toList s = .next t ∧ sameDataAnswers e t u :=
  ⟨_, setIv_of_length rfl hs v.length_eq, sameDataAnswers_of_engine_eq (by simp [hu])⟩

end InForce

/-- Settles O21: each of the three commands, on each engine, leaves the engine with the configuration of `u`. -/
theorem newConfigurationIsInForceNext : Obligations.NewConfigurationIsInForceNext := fun s _ _ _ _ =>
  ⟨construct_in_force (e := .cbc) s, setKey_in_force (e := .cbc), setIv_in_force (e := .cbc),
    construct_in_force (e := .ctr) s, setKey_in_force (e := .ctr), setIv_in_force (e := .ctr)⟩

end Sys2Proof.Machine
end

section
/-! SUPPORT and CERTIFICATE. The family 42_cbc_engine.md: the units of the CBC engine, the result of its two data commands as
functions of its configuration, their round trip, and the requests each command makes to the primitive. -/

namespace Sys2Proof.Machine

/-! ### The padder and the chunker (R120, R121) -/

/-- Settles O30: the bounds, the pad byte and the length of the padder. -/
theorem padderAppendsOneToSixteen : Obligations.PadderAppendsOneToSixteen := by
  rintro m _ rfl
  exact ⟨padLength_pos m.length, padLength_le m.length, rfl, toNat_padByte m.length, length_pad_eq m⟩

/-- The bytes of the chunks are the blocks at the indices 0, 1, ... -/
theorem map_toList_chunks (s : Bytes) :
    (chunks s).map BytesN.toList = (List.range (nblocksExact s.length)).map (block s) := by
  rw [chunks, List.map_filterMap, ← List.filterMap_eq_map]
  refine List.filterMap_congr fun k hk => ?_
  simp [asBlock_of_length (length_block_full (List.mem_range.mp hk))]

theorem getElem?_chunks {s : Bytes} {k : Nat} (h : k < nblocksExact s.length) :
    ((chunks s)[k]?).map BytesN.toList = some (block s k) := by
  rw [← List.getElem?_map, map_toList_chunks, List.getElem?_map, List.getElem?_range h]
  rfl

/-- Settles O31: a buffer of `16n` bytes has `n` whole blocks, and they are all of it. -/
theorem chunkerEmitsWholeBlocks : Obligations.ChunkerEmitsWholeBlocks := by
  intro s n hs
  have hn : nblocksExact s.length = n := by rw [nblocksExact, hs]; omega
  exact ⟨(length_chunks s).trans hn, fun k hk => getElem?_chunks (by rwa [hn]), concatBlocks_chunks n s hs⟩

/-! ### The unpadder (R126, R128, R129) -/

section Unpad
variable {t out : Bytes} {p : Byte}

/-- A pad byte within 1 to `L` is trusted (R128). -/
theorem unpad_trusting_eq_ok_iff (hp : t.getLast? = some p) :
    unpad false t = .ok out ↔ 0 < p.toNat ∧ p.toNat ≤ t.length ∧ t.take (t.length - p.toNat) = out := by
  rw [unpad_trusting hp]
  split_ifs with hzero hlong
  · simp [hzero]
  · simp [hlong]
  · simp [Nat.pos_of_ne_zero hzero, Nat.le_of_not_lt hlong]

/-- The hardened unpadder fails wherever the trusting one does, with the same error (R129). -/
theorem unpad_hardened_of_error {e : CommandError} (h : unpad false t = .error e) : unpad true t = .error e := by
  cases hp : t.getLast? with
  | none =>
    obtain rfl := List.getLast?_eq_none_iff.mp hp
    exact h
  | some p =>
    rw [unpad_trusting hp] at h
    rw [unpad_hardened hp]
    split_ifs at h ⊢ <;> exact h

/-- Where the trusting unpadder answers, the hardened one checks the bytes it would drop (R129). -/
theorem unpad_hardened_of_ok (h : unpad false t = .ok out) (hp : t.getLast? = some p) :
    unpad true t =
      if 16 < p.toNat then .error .padOverBlock
      else if (t.drop out.length).any (fun x => x != p) then .error .padMismatch
      else .ok out := by
  obtain ⟨hpos, hle, rfl⟩ := (unpad_trusting_eq_ok_iff hp).mp h
  have hlen : (t.take (t.length - p.toNat)).length = t.length - p.toNat := by simp
  rw [unpad_hardened hp, if_neg hpos.ne', if_neg hle.not_gt, hlen]

/-- The unpadder undoes the padder, with `PAD_VALIDATE` set or not. -/
theorem unpad_pad (validate : Bool) (m : Bytes) : unpad validate (pad m) = .ok m := by
  have hlast := getLast?_pad m
  have htrusting : unpad false (pad m) = .ok m := by
    rw [unpad_trusting_eq_ok_iff hlast, toNat_padByte, length_pad, Nat.add_sub_cancel]
    exact ⟨padLength_pos _, Nat.le_add_left _ _, List.take_left⟩
  cases validate with
  | false => exact htrusting
  | true =>
    have hdropped : (pad m).drop m.length = List.replicate (padLength m.length) (BitVec.ofNat 8 (padLength m.length)) :=
      List.drop_left
    rw [unpad_hardened_of_ok htrusting hlast, toNat_padByte, if_neg (padLength_le _).not_gt, hdropped]
    simp

end Unpad

/-- Settles O32: the trusting unpadder's three outcomes on a buffer with a last byte, and none without one. -/
theorem unpadderTrustsTheLastByte : Obligations.UnpadderTrustsTheLastByte := by
  refine fun t => ⟨?_, fun p hp => ⟨fun hzero => ?_, fun hlong => ?_, fun hpos hle => ?_⟩, rfl⟩
  · rintro rfl
    rfl
  · rw [unpad_trusting hp, if_pos hzero]
  · rw [unpad_trusting hp, if_neg (Nat.ne_zero_of_lt hlong), if_pos hlong]
  · exact (unpad_trusting_eq_ok_iff hp).mpr ⟨hpos, hle, rfl⟩

/-- Settles O33: the further check is on the bytes that the trusting unpadder drops, which the padder made equal. -/
theorem hardenedUnpadderChecksThePadding : Obligations.HardenedUnpadderChecksThePadding := by
  refine ⟨rfl, fun t => ⟨fun e => unpad_hardened_of_error, fun out p hok hp => ?_⟩, unpad_pad true, rfl⟩
  rw [unpad_hardened_of_ok hok hp]
  refine ⟨fun hover => if_pos hover, fun hle hdiffers => ?_, fun hle hsame => ?_⟩
  · rw [if_neg hle.not_gt, if_pos (by simpa using hdiffers)]
  · rw [if_neg hle.not_gt, if_neg (by simpa using hsame)]

/-! ### The chains (R122, R125) -/

theorem getElem?_cbcChainEnc (f : Block → Block) {v b c : Block} {bs : List Block} {i : Nat} (hb : bs[i]? = some b)
    (hc : (v :: cbcChainEnc f v bs)[i]? = some c) : (cbcChainEnc f v bs)[i]? = some (f (xor16 b c)) := by
  induction bs generalizing v i with
  | nil => simp at hb
  | cons b₀ bs ih =>
    cases i with
    | zero =>
      obtain rfl : b₀ = b := by simpa using hb
      obtain rfl : v = c := by simpa using hc
      rfl
    | succ i => exact ih hb hc

theorem getElem?_cbcChainDec (f : Block → Block) {v b c : Block} {bs : List Block} {i : Nat} (hb : bs[i]? = some b)
    (hc : (v :: bs)[i]? = some c) : (cbcChainDec f v bs)[i]? = some (xor16 (f b) c) := by
  induction bs generalizing v i with
  | nil => simp at hb
  | cons b₀ bs ih =>
    cases i with
    | zero =>
      obtain rfl : b₀ = b := by simpa using hb
      obtain rfl : v = c := by simpa using hc
      rfl
    | succ i => exact ih hb hc

/-- Settles O28: at index 0 the chaining value is the IV, and the rest of a chain is the chain from its first ciphertext block. -/
theorem cbcChainsByIndex : Obligations.CbcChainsByIndex := fun f v bs =>
  ⟨length_cbcChainEnc f v bs, length_cbcChainDec f v bs, fun _ _ _ => getElem?_cbcChainEnc f,
    fun _ _ _ => getElem?_cbcChainDec f⟩

/-- `decrypt_block` undoes `encrypt_block` (R182). -/
theorem Params.D_E (P : Params) (k : Key) (b : Block) : P.D k (P.E k b) = b := (P.init k).symm_apply_apply b

/-- Each block: `D` undoes `E`, and the second XOR undoes the first (R182, R89). -/
theorem cbcChainDec_cbcChainEnc (P : Params) (k : Key) (v : Block) (bs : List Block) :
    cbcChainDec (P.D k) v (cbcChainEnc (P.E k) v bs) = bs := by
  induction bs generalizing v with
  | nil => rfl
  | cons b bs ih => rw [cbcChainEnc, cbcChainDec, Params.D_E, xor16_cancel, ih]

/-- Settles O29: the decrypt chain meets the same chaining values as the encrypt chain. -/
theorem cbcChainInverse : Obligations.CbcChainInverse := cbcChainDec_cbcChainEnc

/-! ### Ciphertext and plaintext as functions of the configuration (R123, R127) -/

/-- `OUT` of `CBC.ENCRYPT`: the chain over the padded message (R123). -/
def cbcCiphertext (P : Params) (inst : EngineInstance) (m : Bytes) : Bytes :=
  concatBlocks (cbcChainEnc (P.E inst.key) inst.iv (chunks (pad m)))

/-- `PT` of `CBC.DECRYPT`: the decrypted blocks, the padding still in place (R127). -/
def cbcPlaintext (P : Params) (inst : EngineInstance) (a : Bytes) : Bytes :=
  concatBlocks (cbcChainDec (P.D inst.key) inst.iv (chunks a))

/-- The requests of `CBC.ENCRYPT`, in index order (R132). -/
def cbcEncryptRequests (P : Params) (inst : EngineInstance) (m : Bytes) : List PrimRequest :=
  (cbcChainInputs (P.E inst.key) inst.iv (chunks (pad m))).map (.encryptBlock inst.key)

/-- The requests of `CBC.DECRYPT`, in index order (R132). -/
def cbcDecryptRequests (inst : EngineInstance) (a : Bytes) : List PrimRequest :=
  (chunks a).map (.decryptBlock inst.key)

/-- The response of `CBC.DECRYPT` to what the unpadder made of `PT`. -/
def unpadResponse : Except CommandError Bytes → Response
  | .error e => errorResponse e
  | .ok out => okResponse out

theorem length_cbcCiphertext (P : Params) (inst : EngineInstance) (m : Bytes) :
    (cbcCiphertext P inst m).length = 16 * (m.length / 16 + 1) := by
  rw [cbcCiphertext, length_concatBlocks, length_cbcChainEnc, length_chunks, nblocksExact, length_pad_eq,
    Nat.mul_div_cancel_left _ (by decide)]

theorem length_cbcPlaintext (P : Params) (inst : EngineInstance) {a : Bytes} (h : a.length % 16 = 0) :
    (cbcPlaintext P inst a).length = a.length := by
  rw [cbcPlaintext, length_concatBlocks, length_cbcChainDec, length_chunks, nblocksExact]
  omega

/-- A ciphertext `CBC.DECRYPT` accepts has a last plaintext byte: the unpadder never sees an empty buffer (R126). -/
theorem exists_getLast?_cbcPlaintext (P : Params) (inst : EngineInstance) {a : Bytes} (hpos : 0 < a.length)
    (h : a.length % 16 = 0) : ∃ p, (cbcPlaintext P inst a).getLast? = some p := by
  rw [← length_cbcPlaintext P inst h] at hpos
  exact ⟨_, List.getLast?_eq_some_getLast (List.ne_nil_of_length_pos hpos)⟩

theorem cbcPlaintext_cbcCiphertext (P : Params) (inst : EngineInstance) (m : Bytes) :
    cbcPlaintext P inst (cbcCiphertext P inst m) = pad m := by
  rw [cbcPlaintext, cbcCiphertext, chunks_concatBlocks, cbcChainDec_cbcChainEnc, concatBlocks_chunks _ _ (length_pad_eq m)]

theorem CommandError.status_ne_ok (e : CommandError) : e.status ≠ .ok := by cases e <;> simp [CommandError.status]

theorem unpadResponse_eq_ok_iff {x : Except CommandError Bytes} {out : Bytes} :
    unpadResponse x = ⟨.ok, 0x00, out⟩ ↔ x = .ok out := by
  cases x with
  | error e => simp [unpadResponse, errorResponse, e.status_ne_ok]
  | ok o => simp [unpadResponse, okResponse]

/-- On this hardware the pad byte alone decides the response (R126, R128). -/
theorem unpadResponse_trusting {t : Bytes} {p : Byte} (hp : t.getLast? = some p) :
    unpadResponse (unpad false t) =
      if p.toNat = 0 then ⟨.padLengthError, 0x00, []⟩
      else if t.length < p.toNat then ⟨.padLengthError, 0x01, []⟩
      else ⟨.ok, 0x00, t.take (t.length - p.toNat)⟩ := by
  rw [unpad_trusting hp, apply_ite unpadResponse, apply_ite unpadResponse]
  rfl

/-! ### Results and frames of the two commands (R123, R127)

As for the configuration commands, a result written with `deliver` and `sendRequests` is, by definition, the next state with
exactly the listed fields changed. -/

theorem isCiphertextLength_iff {n : Nat} : isCiphertextLength n = true ↔ 0 < n ∧ n % 16 = 0 := by
  simp [isCiphertextLength]

section Unbounded
variable {P : Params} (h : P.bufCap = none) {s : State} {inst : EngineInstance} {a : Bytes}
include h

theorem cbcEncrypt_of_not_constructed (hs : s.cbc = none) (a : Bytes) :
    cbcEncrypt P a s = .next (deliver (errorResponse (.notConstructed (opByte .cbc .encrypt))) s) := by
  rw [cbcEncrypt, withinCap_unbounded h, withInstance_none (e := .cbc) hs]

/-- The loop of the pseudocode answers the chain (R122, R123). -/
theorem cbcEncrypt_of_constructed (hs : s.cbc = some inst) (a : Bytes) :
    cbcEncrypt P a s =
      .next (deliver (okResponse (cbcCiphertext P inst a)) (sendRequests (cbcEncryptRequests P inst a) s)) := by
  obtain ⟨hout, hreqs⟩ := foldl_cbcEncBlock P inst.key (chunks (pad a)) ⟨inst.iv, [], []⟩
  rw [cbcEncrypt, withinCap_unbounded h, withInstance_some (e := .cbc) hs]
  simp only [hout, hreqs, List.nil_append]
  rfl

/-- `NotConstructed` comes before the length check (R127, R198). -/
theorem cbcDecrypt_of_not_constructed (hs : s.cbc = none) (a : Bytes) :
    cbcDecrypt P a s = .next (deliver (errorResponse (.notConstructed (opByte .cbc .decrypt))) s) := by
  rw [cbcDecrypt, withinCap_unbounded h, withInstance_none (e := .cbc) hs]

/-- A bad length is answered before the primitive is asked anything (R124). -/
theorem cbcDecrypt_of_bad_length (hs : s.cbc = some inst) (ha : ¬ (0 < a.length ∧ a.length % 16 = 0)) :
    cbcDecrypt P a s = .next (deliver (errorResponse (.badCiphertextLength a.length)) s) := by
  rw [cbcDecrypt, withinCap_unbounded h, withInstance_some (e := .cbc) hs, if_neg (mt isCiphertextLength_iff.mp ha)]
  rfl

/-- All blocks are decrypted, then the unpadder decides (R127). -/
theorem cbcDecrypt_of_length (hs : s.cbc = some inst) (hpos : 0 < a.length) (hmod : a.length % 16 = 0) :
    cbcDecrypt P a s =
      .next (deliver (unpadResponse (unpad P.padValidate (cbcPlaintext P inst a)))
        (sendRequests (cbcDecryptRequests inst a) s)) := by
  obtain ⟨hout, hreqs⟩ := foldl_cbcDecBlock P inst.key (chunks a) ⟨inst.iv, [], []⟩
  rw [cbcDecrypt, withinCap_unbounded h, withInstance_some (e := .cbc) hs,
    if_pos (isCiphertextLength_iff.mpr ⟨hpos, hmod⟩)]
  simp only [hout, hreqs, List.nil_append]
  show (match unpad P.padValidate (cbcPlaintext P inst a) with | .error e => _ | .ok out => _) = _
  cases unpad P.padValidate (cbcPlaintext P inst a) <;> rfl

theorem answerOf_cbcEncrypt (hs : s.cbc = some inst) (a : Bytes) :
    answerOf s (cbcEncrypt P a s) = some ⟨.ok, 0x00, cbcCiphertext P inst a⟩ := by
  rw [cbcEncrypt_of_constructed h hs, answerOf_deliver rfl]
  rfl

theorem answerOf_cbcDecrypt (hs : s.cbc = some inst) (hpos : 0 < a.length) (hmod : a.length % 16 = 0) :
    answerOf s (cbcDecrypt P a s) = some (unpadResponse (unpad P.padValidate (cbcPlaintext P inst a))) := by
  rw [cbcDecrypt_of_length h hs hpos hmod, answerOf_deliver rfl]

/-- `CBC.DECRYPT` answers `OK` only on a ciphertext length that R124 accepts. -/
theorem length_of_cbcDecrypt_ok (hs : s.cbc = some inst) {info : Byte} {out : Bytes}
    (hok : answerOf s (cbcDecrypt P a s) = some ⟨.ok, info, out⟩) : 0 < a.length ∧ a.length % 16 = 0 := by
  by_contra ha
  rw [cbcDecrypt_of_bad_length h hs ha] at hok
  simp [answerOf, newResponses, errorResponse, CommandError.status] at hok

/-- The ciphertext is of an accepted length, decrypts to the padded message, and the unpadder undoes the padder (R133). -/
theorem cbcDecrypt_cbcEncrypt {t : State} (hs : s.cbc = some inst) (ht : t.cbc = some inst) (m : Bytes) :
    ∃ c, answerOf s (cbcEncrypt P m s) = some ⟨.ok, 0x00, c⟩ ∧ answerOf t (cbcDecrypt P c t) = some ⟨.ok, 0x00, m⟩ := by
  have hlen := length_cbcCiphertext P inst m
  refine ⟨cbcCiphertext P inst m, answerOf_cbcEncrypt h hs m, ?_⟩
  rw [answerOf_cbcDecrypt h ht (by omega) (by omega), cbcPlaintext_cbcCiphertext, unpad_pad]
  rfl

end Unbounded

/-- Settles O23: the two outcomes of `cbcEncrypt`. -/
theorem cbcEncryptOutput : Obligations.CbcEncryptOutput := fun a _ =>
  ⟨decode_opByte .cbc .encrypt a [],
    fun hs => cbcEncrypt_of_not_constructed (P := Config.hardware) rfl hs a,
    fun _ hs => cbcEncrypt_of_constructed (P := Config.hardware) rfl hs a⟩

/-- Settles O25: the three outcomes of `cbcDecrypt`. -/
theorem cbcDecryptOfEveryBuild : Obligations.CbcDecryptOfEveryBuild := by
  refine fun P a s h => ⟨fun hs => cbcDecrypt_of_not_constructed h hs a, fun _ hs ha => cbcDecrypt_of_bad_length h hs ha,
    fun inst hs hpos hmod => (cbcDecrypt_of_length h hs hpos hmod).trans ?_⟩
  rw [cbcPlaintext]
  cases unpad P.padValidate (concatBlocks (cbcChainDec (P.D inst.key) inst.iv (chunks a))) <;> rfl

/-- Settles O24: the three outcomes of `cbcDecrypt`, the last one by the pad byte. -/
theorem cbcDecryptOutcome : Obligations.CbcDecryptOutcome := by
  refine fun a s => ⟨decode_opByte .cbc .decrypt a [],
    fun hs => cbcDecrypt_of_not_constructed (P := Config.hardware) rfl hs a,
    fun _ hs ha => cbcDecrypt_of_bad_length (P := Config.hardware) rfl hs ha, ?_⟩
  rintro inst _ hs hpos hmod rfl
  obtain ⟨p, hp⟩ := exists_getLast?_cbcPlaintext Config.hardware inst hpos hmod
  refine ⟨length_cbcPlaintext Config.hardware inst hmod, p, hp,
    (cbcDecrypt_of_length (P := Config.hardware) rfl hs hpos hmod).trans ?_⟩
  rw [hardware_padValidate, unpadResponse_trusting hp]
  rfl

/-- Settles O26: the round trip of every unbounded build, of which this hardware is one. -/
theorem cbcRoundTrip : Obligations.CbcRoundTrip :=
  ⟨fun _ _ _ m hs ht => cbcDecrypt_cbcEncrypt (P := Config.hardware) rfl hs ht m,
    fun _ _ _ _ m h hs ht => cbcDecrypt_cbcEncrypt h hs ht m⟩

/-- Settles O27: the ciphertext is as long as the padded message, and an accepted pad byte is what the plaintext loses. -/
theorem cbcOutputLength : Obligations.CbcOutputLength := by
  refine fun a out s inst hs => ⟨fun hok => ?_, fun hok => ?_⟩
  · obtain rfl : cbcCiphertext Config.hardware inst a = out := by
      simpa using (answerOf_cbcEncrypt (P := Config.hardware) rfl hs a).symm.trans hok
    have hlen := length_cbcCiphertext Config.hardware inst a
    omega
  · obtain ⟨hpos, hmod⟩ := length_of_cbcDecrypt_ok (P := Config.hardware) rfl hs hok
    have hanswer := (answerOf_cbcDecrypt (P := Config.hardware) rfl hs hpos hmod).symm.trans hok
    obtain ⟨p, hp⟩ := exists_getLast?_cbcPlaintext Config.hardware inst hpos hmod
    obtain ⟨hp0, hple, rfl⟩ := (unpad_trusting_eq_ok_iff hp).mp (unpadResponse_eq_ok_iff.mp (Option.some.inj hanswer))
    rw [length_cbcPlaintext Config.hardware inst hmod] at hple
    refine ⟨p, hp, hp0, hple, ?_⟩
    rw [List.length_take, length_cbcPlaintext Config.hardware inst hmod]
    omega

/-! ### What a response depends on, and what a data command writes (R131, R134, R163) -/

/-- Settles O54: the effect of a command is a function of its own engine's configuration. -/
theorem responseDependsOnOwnEngineOnly : Obligations.ResponseDependsOnOwnEngineOnly := fun _ _ _ h =>
  answerOf_exec_congr h

/-- Only the configuration commands write an engine. -/
theorem EnginesAfter.eq_of_data {i : Instr} {s s' : State} {r : Response} (h : EnginesAfter i s s' r)
    (hi : i.func = .encrypt ∨ i.func = .decrypt) : s' = s := by
  cases h with
  | kept => rfl
  | constructed _ _ hf | rekeyed _ _ hf | newIv _ _ hf => simp [hf] at hi

/-- Settles O56: the engines stay, so the next answer, a function of them, does too. -/
theorem dataCommandsWriteNoEngine : Obligations.DataCommandsWriteNoEngine := by
  intro i s t hi hx
  obtain ⟨s', r, rs, hs', rfl⟩ := exec_next_cases hx
  obtain rfl := hs'.eq_of_data hi
  exact ⟨rfl, rfl, answerOf_exec_congr (by simp)⟩

/-! ### The requests to the primitive (R132, R161, R229) -/

theorem exec_of_setKey {i : Instr} (h : i.func = .setKey) (s : State) :
    exec i s = setKey Config.hardware i.engine i.operandA s := by
  cases i with
  | cbcSetKey | ctrSetKey => rfl
  | _ => simp [Instr.func] at h

theorem exec_of_setIv {i : Instr} (h : i.func = .setIv) (s : State) :
    exec i s = setIv Config.hardware i.engine i.operandA s := by
  cases i with
  | cbcSetIv | ctrSetIv => rfl
  | _ => simp [Instr.func] at h

theorem ctrData_of_not_constructed {P : Params} (h : P.bufCap = none) {s : State} (hs : s.ctr = none) (f : Func)
    (a : Bytes) : ctrData P f a s = .next (deliver (errorResponse (.notConstructed (opByte .ctr f))) s) := by
  rw [ctrData, withinCap_unbounded h, withInstance_none (e := .ctr) hs]

theorem ctrData_of_constructed {P : Params} (h : P.bufCap = none) {s : State} {inst : EngineInstance}
    (hs : s.ctr = some inst) (f : Func) (a : Bytes) :
    ctrData P f a s =
      .next (deliver (okResponse (ctrLoop P inst.key inst.iv a).out)
        (sendRequests (ctrLoop P inst.key inst.iv a).reqs s)) := by
  rw [ctrData, withinCap_unbounded h, withInstance_some (e := .ctr) hs]
  rfl

/-- Every command but `CONSTRUCT` on an engine that is not constructed raises `NotConstructed` and does nothing else (R196). -/
theorem exec_of_not_constructed {i : Instr} {s : State} (hf : i.func ≠ .construct) (hs : s.engine i.engine = none) :
    exec i s = .next (deliver (errorResponse (.notConstructed (opByte i.engine i.func))) s) := by
  cases i with
  | cbcConstruct | ctrConstruct => exact absurd rfl hf
  | cbcSetKey a => exact setKey_of_not_constructed (P := Config.hardware) rfl hs a
  | cbcSetIv a => exact setIv_of_not_constructed (P := Config.hardware) rfl hs a
  | cbcEncrypt a => exact cbcEncrypt_of_not_constructed (P := Config.hardware) rfl hs a
  | cbcDecrypt a => exact cbcDecrypt_of_not_constructed (P := Config.hardware) rfl hs a
  | ctrSetKey a => exact setKey_of_not_constructed (P := Config.hardware) rfl hs a
  | ctrSetIv a => exact setIv_of_not_constructed (P := Config.hardware) rfl hs a
  | ctrEncrypt a => exact ctrData_of_not_constructed (P := Config.hardware) rfl hs .encrypt a
  | ctrDecrypt a => exact ctrData_of_not_constructed (P := Config.hardware) rfl hs .decrypt a

section Requests
variable {P : Params} (h : P.bufCap = none)
include h

/-- One `init` for each `CONSTRUCT` that succeeds, none for one that fails (R229). -/
theorem construct_requests (e : Engine) (k v : Bytes) (s : State) :
    ∃ t, construct P e k v s = .next t ∧
      (∀ hk : k.length = 16, v.length = 16 → t.requests = s.requests ++ [.init ⟨k, hk⟩]) ∧
      (k.length ≠ 16 ∨ v.length ≠ 16 → t.requests = s.requests) := by
  by_cases hk : k.length = 16
  · by_cases hv : v.length = 16
    · exact ⟨_, construct_of_lengths h e hk hv s, fun _ _ => by simp, fun hbad => by simp [hk, hv] at hbad⟩
    · exact ⟨_, construct_of_bad_iv h e hk hv s, fun _ hv' => absurd hv' hv, fun _ => rfl⟩
  · exact ⟨_, construct_of_bad_key h e hk v s, fun hk' => absurd hk' hk, fun _ => rfl⟩

/-- One `init` for each `SET_KEY` that succeeds, none for one that fails (R229). -/
theorem setKey_requests {e : Engine} {s : State} {inst : EngineInstance} (hs : s.engine e = some inst) (a : Bytes) :
    ∃ t, setKey P e a s = .next t ∧
      (∀ ha : a.length = 16, t.requests = s.requests ++ [.init ⟨a, ha⟩]) ∧
      (a.length ≠ 16 → t.requests = s.requests) := by
  by_cases ha : a.length = 16
  · exact ⟨_, setKey_of_length h hs ha, fun _ => by simp, fun hbad => absurd ha hbad⟩
  · exact ⟨_, setKey_of_bad_length h hs ha, fun ha' => absurd ha' ha, fun _ => rfl⟩

/-- `SET_IV` never asks the primitive (R187). -/
theorem setIv_requests (e : Engine) (a : Bytes) (s : State) :
    ∃ t, setIv P e a s = .next t ∧ t.requests = s.requests := by
  cases hs : s.engine e with
  | none => exact ⟨_, setIv_of_not_constructed h hs a, rfl⟩
  | some inst =>
    by_cases ha : a.length = 16
    · exact ⟨_, setIv_of_length h hs ha, by simp⟩
    · exact ⟨_, setIv_of_bad_length h hs ha, rfl⟩

theorem cbcDecrypt_requests_of_bad_length {a : Bytes} (ha : ¬ (0 < a.length ∧ a.length % 16 = 0)) (s : State) :
    ∃ t, cbcDecrypt P a s = .next t ∧ t.requests = s.requests := by
  cases hs : s.cbc with
  | none => exact ⟨_, cbcDecrypt_of_not_constructed h hs a, rfl⟩
  | some inst => exact ⟨_, cbcDecrypt_of_bad_length h hs ha, rfl⟩

end Requests

/-- The requests of both CTR data commands: the counter blocks, to be encrypted (R161). -/
theorem ctrLoop_reqs (P : Params) (k : Key) (v : Block) (a : Bytes) :
    (ctrLoop P k v a).reqs = ((List.range (nblocksCeil a.length)).map (counterBlockAt v)).map (.encryptBlock k) := by
  rw [ctrLoop_eq, List.map_map]
  rfl

/-- Settles O59: the recorded requests of each outcome, and the length of the list of blocks behind them. -/
theorem primitiveRequestCounts : Obligations.PrimitiveRequestCounts := by
  intro a s inst
  refine ⟨fun hs => ?_, fun hs hpos hmod => ?_, fun ha => cbcDecrypt_requests_of_bad_length (P := Config.hardware) rfl ha s,
    fun hs => ?_, fun i hf hs => ⟨_, exec_of_not_constructed hf hs, rfl⟩, fun k v => ?_, fun i hf hs => ?_, fun i hf => ?_⟩
  · refine ⟨_, _, cbcEncrypt_of_constructed (P := Config.hardware) rfl hs a, rfl, ?_⟩
    rw [length_cbcChainInputs, length_chunks, nblocksExact, length_pad_eq, Nat.mul_div_cancel_left _ (by decide)]
  · exact ⟨_, chunks a, cbcDecrypt_of_length (P := Config.hardware) rfl hs hpos hmod, rfl, length_chunks a⟩
  · refine ⟨_, _, _, ctrData_of_constructed (P := Config.hardware) rfl hs .encrypt a,
      ctrData_of_constructed (P := Config.hardware) rfl hs .decrypt a, congrArg (s.requests ++ ·) (ctrLoop_reqs ..), rfl, ?_⟩
    rw [List.length_map, List.length_range, nblocksCeil]
  · obtain ⟨t, ht, htok, htbad⟩ := construct_requests (P := Config.hardware) rfl .cbc k v s
    obtain ⟨u, hu, huok, hubad⟩ := construct_requests (P := Config.hardware) rfl .ctr k v s
    refine ⟨t, u, ht, hu, ?_, htok, htbad⟩
    by_cases hlen : k.length = 16 ∧ v.length = 16
    · obtain ⟨hk, hv⟩ := hlen
      rw [htok hk hv, huok hk hv]
    · have hbad : k.length ≠ 16 ∨ v.length ≠ 16 := not_and_or.mp hlen
      rw [htbad hbad, hubad hbad]
  · rw [exec_of_setKey hf]
    exact setKey_requests rfl hs i.operandA
  · rw [exec_of_setIv hf]
    exact setIv_requests rfl i.engine i.operandA s

end Sys2Proof.Machine
end

section
/-! SUPPORT and CERTIFICATE. The family 43_ctr_engine.md: the transform byte by byte and block by block, the result of the two
CTR data commands as the transform, that it undoes itself, and its length and locality. -/

namespace Sys2Proof.Machine

/-! ### The transform by bytes (R157, R159, R160) -/

/-- The byte that `ctr_transform` XORs to the byte at index `x` (R157). -/
def ctrKeystreamByte (enc : Block → Block) (v : Block) (x : Nat) : Byte :=
  byteAt (enc (counterBlockAt v (x / 16))) ⟨x % 16, Nat.mod_lt x (by decide)⟩

theorem ctrKeystreamByte_block (enc : Block → Block) (v : Block) (i : Nat) {j : Nat} (hj : j < 16) :
    ctrKeystreamByte enc v (16 * i + j) = byteAt (enc (counterBlockAt v i)) ⟨j, hj⟩ := by
  have hdiv : (16 * i + j) / 16 = i := by omega
  have hmod : (16 * i + j) % 16 = j := by omega
  simp only [ctrKeystreamByte, hdiv, hmod]

/-- An output byte is the input byte at the same index with a keystream byte that no input byte enters (R157, R159). -/
theorem getElem?_ctrTransform (enc : Block → Block) (v : Block) (a : Bytes) (x : Nat) :
    (ctrTransform enc v a)[x]? = a[x]?.map (· ^^^ ctrKeystreamByte enc v x) :=
  List.getElem?_mapIdx

/-- The second XOR with the keystream takes the first away, whatever the primitive (R160). -/
theorem ctrTransform_ctrTransform (enc : Block → Block) (v : Block) (a : Bytes) :
    ctrTransform enc v (ctrTransform enc v a) = a := by
  apply List.ext_getElem?
  intro x
  rw [getElem?_ctrTransform, getElem?_ctrTransform, Option.map_map]
  have hcancel : (· ^^^ ctrKeystreamByte enc v x) ∘ (· ^^^ ctrKeystreamByte enc v x) = id :=
    funext fun d => by simp
  rw [hcancel, Option.map_id, id]

/-! ### The transform by blocks (R154, R155) -/

theorem getElem?_xorn (a : Bytes) (b : Block) {j : Nat} (hj : j < 16) :
    (xorn a b)[j]? = a[j]?.map (· ^^^ byteAt b ⟨j, hj⟩) := by
  rw [xorn, List.getElem?_zipWith, getElem?_toList b ⟨j, hj⟩]
  cases a[j]? <;> rfl

/-- Block `i` of the transform is what turn `i` of the loop puts out, a short last block included. -/
theorem block_ctrTransform (enc : Block → Block) (v : Block) (a : Bytes) (i : Nat) :
    block (ctrTransform enc v a) i = xorn (block a i) (enc (counterBlockAt v i)) := by
  have hlen : (block (ctrTransform enc v a) i).length = (xorn (block a i) (enc (counterBlockAt v i))).length := by
    rw [length_xorn_block, length_block, length_block, length_ctrTransform]
  apply List.ext_getElem?
  intro j
  by_cases hj : j < 16
  · rw [getElem?_block _ i hj, getElem?_ctrTransform, ctrKeystreamByte_block enc v i hj, getElem?_xorn _ _ hj,
      getElem?_block a i hj]
  · have hle : (block (ctrTransform enc v a) i).length ≤ j := by rw [length_block]; omega
    rw [List.getElem?_eq_none hle, List.getElem?_eq_none (hlen ▸ hle)]

/-- The loop over counter blocks puts out the transform (R155, R157). -/
theorem ctrLoop_out (P : Params) (k : Key) (v : Block) (a : Bytes) :
    (ctrLoop P k v a).out = ctrTransform (P.E k) v a := by
  have hblocks : (ctrTransform (P.E k) v a).length ≤ 16 * nblocksCeil a.length := by
    rw [length_ctrTransform]
    exact le_nblocksCeil a.length
  calc (ctrLoop P k v a).out
      = (List.range (nblocksCeil a.length)).flatMap (block (ctrTransform (P.E k) v a)) := by
        simp only [ctrLoop_eq, ← block_ctrTransform]
    _ = (ctrTransform (P.E k) v a).take (16 * nblocksCeil a.length) := flatMap_block_range _ _
    _ = ctrTransform (P.E k) v a := List.take_of_length_le hblocks

/-! ### Results and frames of the two commands (R155, R156) -/

section Unbounded
variable {P : Params} (h : P.bufCap = none) {s : State} {inst : EngineInstance} (hs : s.ctr = some inst)
include h hs

/-- Either command on a constructed engine answers the transform and asks for the counter blocks in index order. -/
theorem ctrData_eq_ctrTransform (f : Func) (a : Bytes) :
    ctrData P f a s =
      .next (deliver (okResponse (ctrTransform (P.E inst.key) inst.iv a))
        (sendRequests (((List.range (nblocksCeil a.length)).map (counterBlockAt inst.iv)).map (.encryptBlock inst.key)) s)) := by
  rw [ctrData_of_constructed h hs, ctrLoop_out, ctrLoop_reqs]

theorem answerOf_ctrData (f : Func) (a : Bytes) :
    answerOf s (ctrData P f a s) = some ⟨.ok, 0x00, ctrTransform (P.E inst.key) inst.iv a⟩ := by
  rw [ctrData_eq_ctrTransform h hs, answerOf_deliver rfl]
  rfl

theorem answerOf_ctrData_eq_ok_iff (f : Func) (a o : Bytes) :
    answerOf s (ctrData P f a s) = some ⟨.ok, 0x00, o⟩ ↔ ctrTransform (P.E inst.key) inst.iv a = o := by
  simp [answerOf_ctrData h hs]

theorem length_of_ctrData_ok {f : Func} {a o : Bytes} (hok : answerOf s (ctrData P f a s) = some ⟨.ok, 0x00, o⟩) :
    o.length = a.length := by
  obtain rfl := (answerOf_ctrData_eq_ok_iff h hs f a o).mp hok
  exact length_ctrTransform _ _ a

/-- Inputs that agree at one index give outputs that agree there (R159). -/
theorem getElem?_of_ctrData_ok {f : Func} {a a' o o' : Bytes} (hok : answerOf s (ctrData P f a s) = some ⟨.ok, 0x00, o⟩)
    (hok' : answerOf s (ctrData P f a' s) = some ⟨.ok, 0x00, o'⟩) (x : Nat) (hx : a[x]? = a'[x]?) : o[x]? = o'[x]? := by
  obtain rfl := (answerOf_ctrData_eq_ok_iff h hs f a o).mp hok
  obtain rfl := (answerOf_ctrData_eq_ok_iff h hs f a' o').mp hok'
  rw [getElem?_ctrTransform, getElem?_ctrTransform, hx]

end Unbounded

/-- Settles O34: the two outcomes of `ctrData` for each command; the loop's output is the transform block by block. -/
theorem ctrOutputIsTheTransform : Obligations.CtrOutputIsTheTransform := by
  refine fun a s => ⟨decode_opByte .ctr .encrypt a [], decode_opByte .ctr .decrypt a [],
    fun hs => ⟨ctrData_of_not_constructed (P := Config.hardware) rfl hs .encrypt a,
      ctrData_of_not_constructed (P := Config.hardware) rfl hs .decrypt a⟩, ?_⟩
  intro inst t hs ht
  have hdata (f : Func) : ctrData Config.hardware f a s = .next t := by
    rw [ctrData_eq_ctrTransform rfl hs, List.map_map, ht]
    rfl
  exact ⟨hdata .encrypt, hdata .decrypt⟩

/-- Settles O35: both commands answer the same transform, and it undoes itself. -/
theorem ctrSelfInverse : Obligations.CtrSelfInverse := by
  refine ⟨ctrTransform_ctrTransform, fun s t inst d hs ht => ?_⟩
  have hback (f : Func) : answerOf t (ctrData Config.hardware f (ctrTransform (Config.hardware.E inst.key) inst.iv d) t) =
      some ⟨.ok, 0x00, d⟩ := (answerOf_ctrData_eq_ok_iff rfl ht f _ d).mpr (ctrTransform_ctrTransform ..)
  exact ⟨_, answerOf_ctrData (P := Config.hardware) rfl hs .encrypt d,
    answerOf_ctrData (P := Config.hardware) rfl hs .decrypt d, hback .decrypt, hback .encrypt⟩

/-- Settles O36: an answered output is the transform, which works byte by byte. -/
theorem ctrPreservesLength : Obligations.CtrPreservesLength := fun _ _ _ _ _ _ hs =>
  ⟨length_of_ctrData_ok (P := Config.hardware) rfl hs (f := .encrypt),
    length_of_ctrData_ok (P := Config.hardware) rfl hs (f := .decrypt),
    getElem?_of_ctrData_ok (P := Config.hardware) rfl hs (f := .encrypt),
    getElem?_of_ctrData_ok (P := Config.hardware) rfl hs (f := .decrypt)⟩

end Sys2Proof.Machine
end

section
/-! SUPPORT and CERTIFICATE. The family 44_primitive_interface.md: the two functions of the primitive are inverse to each other. -/

namespace Sys2Proof.Machine

/-- `encrypt_block` undoes `decrypt_block` (R182). -/
theorem Params.E_D (P : Params) (k : Key) (b : Block) : P.E k (P.D k b) = b := (P.init k).apply_symm_apply b

/-- Settles O22: a function with a two-sided inverse is a bijection, and so is the inverse. -/
theorem primitiveIsInvertible : Obligations.PrimitiveIsInvertible := fun P k =>
  have hDE : Function.LeftInverse (P.D k) (P.E k) := Params.D_E P k
  have hED : Function.LeftInverse (P.E k) (P.D k) := Params.E_D P k
  ⟨fun b => ⟨hDE b, hED b⟩, ⟨hDE.injective, hED.surjective⟩, ⟨hED.injective, hDE.surjective⟩⟩

end Sys2Proof.Machine
end

section
/-! SUPPORT and CERTIFICATE. The family 60_exceptions.md: what a command record does whether or not it decodes, errors that
leave the engines and the next command alone, and the statuses each command can answer. -/

namespace Sys2Proof.Machine

/-! ### The codes (R191 to R197) -/

theorem Status.toNat_code_lt (st : Status) : st.code.toNat < 7 := by cases st <;> decide

theorem Status.eq_of_code_eq {st st' : Status} : st.code = st'.code → st = st' := by
  cases st <;> cases st' <;> decide

theorem toNat_info_badCiphertextLength (n : Nat) : (CommandError.badCiphertextLength n).info.toNat = n % 16 := by
  rw [CommandError.info, BitVec.toNat_ofNat]
  omega

/-- Settles O53: the rows of the table, and the injectivity of the status byte. -/
theorem statusAndInfoCodesFollowTheTable : Obligations.StatusAndInfoCodesFollowTheTable :=
  ⟨rfl, fun st _ => ⟨st.toNat_code_lt, Status.eq_of_code_eq⟩, rfl, fun n => ⟨rfl, toNat_info_badCiphertextLength n⟩,
    fun _ => ⟨rfl, rfl, rfl, rfl⟩⟩

/-! ### A command record, reserved or not -/

theorem exec_eq_buildExec : exec = buildExec Config.hardware := funext fun i => funext (exec_eq_buildExec_arm i)

theorem runCommand_of_reserved {c : Command} {w : Reserved} (h : decode c = .error w) (ex : Instr → State → Result)
    (s : State) : runCommand ex c s = .next (deliver (errorResponse (.illegalCommand c.op)) s) := by
  simp [runCommand, h]

/-- Settles O6: a byte with a bad `RSV` or `FUNC` does not decode, and the record is answered by its byte. -/
theorem reservedCommandRaisesIllegalCommand : Obligations.ReservedCommandRaisesIllegalCommand := by
  intro s op a b rest hpending hreserved
  obtain ⟨w, hw⟩ := (exists_decodeOp_error_iff op).mpr hreserved
  have hdecode : decode ⟨op, a, b⟩ = .error w := decode_eq_error_iff.mpr hw
  rw [step_of_command hpending, runCommand_of_reserved hdecode]
  rfl

theorem answerOf_of_responses {s t : State} {r : Response} (h : t.responses = s.responses ++ [r]) :
    answerOf s (.next t) = some r := by simp [answerOf, newResponses, h]

/-- Only an answer `OK` comes with a write to an engine. -/
theorem EnginesAfter.eq_of_error {i : Instr} {s s' : State} {r : Response} (h : EnginesAfter i s s' r)
    (hr : r.status ≠ .ok) : s' = s := by
  cases h with
  | kept => rfl
  | constructed | rekeyed | newIv => exact absurd rfl hr

/-- The output of an error is empty (R199). -/
theorem Response.Legal.out_of_error {r : Response} (h : r.Legal) (hr : r.status ≠ .ok) : r.out = [] := by
  unfold Response.Legal at h
  cases hst : r.status with
  | ok => exact absurd hst hr
  | invalidKeyIvLength | malformedCiphertextLength | padLengthError | padInconsistentError | notConstructed
  | illegalCommand =>
    rw [hst] at h
    exact h.1

/-- On a build without a bound every record is answered once, and an error has no output and writes no engine (R199, R200). -/
theorem runCommand_cases {P : Params} (h : P.bufCap = none) (c : Command) (s : State) :
    ∃ s' r rs, runCommand (buildExec P) c s = .next (deliver r (sendRequests rs s')) ∧ s'.responses = s.responses ∧
      (r.status ≠ .ok → r.out = [] ∧ s' = s) := by
  cases hd : decode c with
  | error w =>
    exact ⟨s, errorResponse (.illegalCommand c.op), [], by simpa using runCommand_of_reserved hd _ s, rfl,
      fun _ => ⟨rfl, rfl⟩⟩
  | ok i =>
    obtain ⟨s', r, rs, hs', hlegal, hexec⟩ := buildExec_shape h i s
    exact ⟨s', r, rs, (runCommand_of_decode hd _ s).trans hexec, hs'.responses_eq,
      fun hr => ⟨hlegal.out_of_error hr, hs'.eq_of_error hr⟩⟩

/-- After an error the output is empty and both engines are what they were (R200). -/
theorem error_frame {P : Params} (h : P.bufCap = none) {c : Command} {s t : State} {r : Response}
    (hrun : runCommand (buildExec P) c s = .next t) (hanswer : answerOf s (.next t) = some r) (hr : r.status ≠ .ok) :
    r.out = [] ∧ t.cbc = s.cbc ∧ t.ctr = s.ctr := by
  obtain ⟨s', r', rs, hrun', hresponses, herror⟩ := runCommand_cases h c s
  obtain rfl := Host.Outcome.next.inj (hrun.symm.trans hrun')
  obtain rfl := Option.some.inj ((answerOf_deliver hresponses).symm.trans hanswer)
  obtain ⟨hout, rfl⟩ := herror hr
  exact ⟨hout, rfl, rfl⟩

/-- Settles O49: the frame of an error, on every unbounded build, of which this hardware is one. -/
theorem errorsChangeNoEngine : Obligations.ErrorsChangeNoEngine := by
  refine ⟨fun c s t r hrun hresponses => ?_, fun P c s t r h hrun hresponses => ?_⟩
  · rw [exec_eq_buildExec] at hrun
    exact error_frame (P := Config.hardware) rfl hrun (answerOf_of_responses hresponses)
  · exact error_frame h hrun (answerOf_of_responses hresponses)

/-- Settles O10: a wait and a reset are next states, and so is the answer to a record that decodes and to one that does not. -/
theorem everyStepAnswers : Obligations.EveryStepAnswers := by
  refine ⟨fun s => ?_, fun i s => ?_⟩
  · match hh : s.hostInput with
    | [] => exact ⟨_, step_of_idle hh⟩
    | .reset _ :: rest => exact ⟨_, step_of_reset hh⟩
    | .command c :: rest =>
      obtain ⟨s', r, rs, hrun, -⟩ := runCommand_cases (P := Config.hardware) rfl c { s with hostInput := rest }
      rw [← exec_eq_buildExec] at hrun
      exact ⟨_, (step_of_command hh).trans hrun⟩
  · obtain ⟨s', r, rs, -, -, hexec⟩ := exec_shape i s
    exact ⟨_, hexec⟩

/-! ### An error is not sticky (R201) -/

/-- What a record does is a function of one engine's configuration; a reserved one reads neither. -/
theorem runCommand_effectFrom (c : Command) (s : State) : ∃ e, EffectFrom e (s.engine e) (runCommand exec c) := by
  cases hd : decode c with
  | error w =>
    rw [show runCommand exec c = _ from funext (runCommand_of_reserved hd exec)]
    exact ⟨.cbc, .error _⟩
  | ok i =>
    rw [show runCommand exec c = _ from funext (runCommand_of_decode hd exec)]
    exact ⟨i.engine, exec_effectFrom i _⟩

/-- The same write to the same engines gives the same engines. -/
theorem updateEngine_engine_congr {s t : State} (h : ∀ e, s.engine e = t.engine e) (e : Engine)
    (w : Option EngineInstance) (x : Engine) : (s.updateEngine e w).engine x = (t.updateEngine e w).engine x := by
  cases w with
  | none => exact h x
  | some inst =>
    by_cases hx : x = e
    · subst hx
      simp [State.updateEngine]
    · simp [State.updateEngine, setEngine_engine_other _ _ hx, h]

/-- A record is answered alike from states with the same engines, and leaves the engines alike (R33). -/
theorem runCommand_congr {s t : State} (h : ∀ e, s.engine e = t.engine e) (c : Command) :
    answerOf s (runCommand exec c s) = answerOf t (runCommand exec c t) ∧
    ∃ u w, runCommand exec c s = .next u ∧ runCommand exec c t = .next w ∧ ∀ e, u.engine e = w.engine e := by
  obtain ⟨e, written, r, rs, heffect⟩ := runCommand_effectFrom c t
  rw [heffect s (h e), heffect t rfl, answerOf_deliver (updateEngine_responses ..),
    answerOf_deliver (updateEngine_responses ..)]
  exact ⟨rfl, _, _, rfl, rfl, fun x => by simpa using updateEngine_engine_congr h e written x⟩

/-- Settles O50: an error leaves the engines, and what the next command does depends on nothing else. -/
theorem errorsLeaveNoTrace : Obligations.ErrorsLeaveNoTrace := by
  intro c d s t r hrun hanswer hr
  rw [hrun] at hanswer
  rw [exec_eq_buildExec] at hrun
  obtain ⟨-, hcbc, hctr⟩ := error_frame (P := Config.hardware) rfl hrun hanswer hr
  have hengines (e : Engine) : t.engine e = s.engine e := by
    cases e with
    | cbc => exact hcbc
    | ctr => exact hctr
  obtain ⟨hsame, u, w, hu, hw, huw⟩ := runCommand_congr hengines d
  exact ⟨hsame, u, w, hu, hw, huw .cbc, huw .ctr⟩

/-! ### The statuses of each command (R196, R204) -/

/-- A row of the table of R204, `PAD_VALIDATE = false`: the statuses the command can answer. -/
def statusesOf : Func → Engine → List Status
  | .construct, _ => [.ok, .invalidKeyIvLength]
  | .setKey, _ | .setIv, _ => [.ok, .invalidKeyIvLength, .notConstructed]
  | .decrypt, .cbc => [.ok, .malformedCiphertextLength, .padLengthError, .notConstructed]
  | .encrypt, _ | .decrypt, .ctr => [.ok, .notConstructed]

theorem mayAnswer_iff_mem_statusesOf {f : Func} {e : Engine} {st : Status} :
    mayAnswer f e st = true ↔ st ∈ statusesOf f e := by
  cases f <;> cases e <;> cases st <;> decide

/-- The command performed on `s` is answered with one of the statuses `l`. -/
def AnswersWith (s : State) (l : List Status) (res : Result) : Prop := ∃ r, answerOf s res = some r ∧ r.status ∈ l

theorem AnswersWith.of_deliver {s s' : State} {l : List Status} {res : Result} {r : Response}
    (h : res = .next (deliver r s')) (hs' : s'.responses = s.responses) (hr : r.status ∈ l) : AnswersWith s l res :=
  ⟨r, h ▸ answerOf_of_responses (congrArg (· ++ [r]) hs'), hr⟩

theorem construct_answersWith (e : Engine) (a b : Bytes) (s : State) :
    AnswersWith s [.ok, .invalidKeyIvLength] (construct Config.hardware e a b s) := by
  by_cases ha : a.length = 16
  · by_cases hb : b.length = 16
    · exact .of_deliver (construct_of_lengths rfl e ha hb s) (by simp) (by decide)
    · exact .of_deliver (construct_of_bad_iv rfl e ha hb s) rfl (by decide)
  · exact .of_deliver (construct_of_bad_key rfl e ha b s) rfl (by decide)

theorem setKey_answersWith (e : Engine) (a : Bytes) (s : State) :
    AnswersWith s [.ok, .invalidKeyIvLength, .notConstructed] (setKey Config.hardware e a s) := by
  cases hs : s.engine e with
  | none => exact .of_deliver (setKey_of_not_constructed rfl hs a) rfl (by simp [errorResponse, CommandError.status])
  | some inst =>
    by_cases ha : a.length = 16
    · exact .of_deliver (setKey_of_length rfl hs ha) (by simp) (by decide)
    · exact .of_deliver (setKey_of_bad_length rfl hs ha) rfl (by decide)

theorem setIv_answersWith (e : Engine) (a : Bytes) (s : State) :
    AnswersWith s [.ok, .invalidKeyIvLength, .notConstructed] (setIv Config.hardware e a s) := by
  cases hs : s.engine e with
  | none => exact .of_deliver (setIv_of_not_constructed rfl hs a) rfl (by simp [errorResponse, CommandError.status])
  | some inst =>
    by_cases ha : a.length = 16
    · exact .of_deliver (setIv_of_length rfl hs ha) (by simp) (by decide)
    · exact .of_deliver (setIv_of_bad_length rfl hs ha) rfl (by decide)

theorem cbcEncrypt_answersWith (a : Bytes) (s : State) :
    AnswersWith s [.ok, .notConstructed] (cbcEncrypt Config.hardware a s) := by
  cases hs : s.cbc with
  | none => exact .of_deliver (cbcEncrypt_of_not_constructed rfl hs a) rfl (by decide)
  | some inst => exact ⟨_, answerOf_cbcEncrypt rfl hs a, by simp⟩

/-- With the padding trusted, the pad byte can be answered `PadLengthError` and no other error (R128). -/
theorem unpadResponse_trusting_status {t : Bytes} {p : Byte} (hp : t.getLast? = some p) :
    (unpadResponse (unpad false t)).status = .padLengthError ∨ (unpadResponse (unpad false t)).status = .ok := by
  rw [unpadResponse_trusting hp]
  split
  · exact .inl rfl
  · split
    · exact .inl rfl
    · exact .inr rfl

theorem cbcDecrypt_answersWith (a : Bytes) (s : State) :
    AnswersWith s [.ok, .malformedCiphertextLength, .padLengthError, .notConstructed] (cbcDecrypt Config.hardware a s) := by
  cases hs : s.cbc with
  | none => exact .of_deliver (cbcDecrypt_of_not_constructed rfl hs a) rfl (by decide)
  | some inst =>
    by_cases ha : 0 < a.length ∧ a.length % 16 = 0
    · obtain ⟨hpos, hmod⟩ := ha
      obtain ⟨p, hp⟩ := exists_getLast?_cbcPlaintext Config.hardware inst hpos hmod
      refine ⟨_, answerOf_cbcDecrypt rfl hs hpos hmod, ?_⟩
      obtain hst | hst := unpadResponse_trusting_status hp <;> simp [hst]
    · exact .of_deliver (cbcDecrypt_of_bad_length rfl hs ha) rfl (by simp [errorResponse, CommandError.status])

theorem ctrData_answersWith (f : Func) (a : Bytes) (s : State) :
    AnswersWith s [.ok, .notConstructed] (ctrData Config.hardware f a s) := by
  cases hs : s.ctr with
  | none => exact .of_deliver (ctrData_of_not_constructed rfl hs f a) rfl (by simp [errorResponse, CommandError.status])
  | some inst => exact ⟨_, answerOf_ctrData rfl hs f a, by simp⟩

/-- Every command answers within its row of the table (R204). -/
theorem exec_answersWith (i : Instr) (s : State) : AnswersWith s (statusesOf i.func i.engine) (exec i s) := by
  cases i with
  | cbcConstruct a b => exact construct_answersWith .cbc a b s
  | cbcSetKey a => exact setKey_answersWith .cbc a s
  | cbcSetIv a => exact setIv_answersWith .cbc a s
  | cbcEncrypt a => exact cbcEncrypt_answersWith a s
  | cbcDecrypt a => exact cbcDecrypt_answersWith a s
  | ctrConstruct a b => exact construct_answersWith .ctr a b s
  | ctrSetKey a => exact setKey_answersWith .ctr a s
  | ctrSetIv a => exact setIv_answersWith .ctr a s
  | ctrEncrypt a => exact ctrData_answersWith .encrypt a s
  | ctrDecrypt a => exact ctrData_answersWith .decrypt a s

theorem status_mem_statusesOf {i : Instr} {s : State} {r : Response} (h : answerOf s (exec i s) = some r) :
    r.status ∈ statusesOf i.func i.engine := by
  obtain ⟨r', hr', hst⟩ := exec_answersWith i s
  obtain rfl := Option.some.inj (hr'.symm.trans h)
  exact hst

/-- Settles O51: the row of `CONSTRUCT` has no `NotConstructed`, and no command writes an engine but its own. -/
theorem notConstructedComesFirst : Obligations.NotConstructedComesFirst := by
  intro i s
  refine ⟨exec_of_not_constructed, fun hf r hr hst => ?_, fun t e hx he => ?_⟩
  · have hmem := status_mem_statusesOf hr
    rw [hf, hst] at hmem
    exact absurd hmem (by simp [statusesOf])
  · obtain ⟨s', r, rs, hs', rfl⟩ := exec_next_cases hx
    simpa using hs'.engine_other he.symm

/-! ### Each cross of the table is met (R204) -/

/-- Some command `f` of engine `e` is answered with the status `st` in some state. -/
def CanAnswer (f : Func) (e : Engine) (st : Status) : Prop :=
  ∃ (i : Instr) (s : State) (r : Response), i.func = f ∧ i.engine = e ∧ answerOf s (exec i s) = some r ∧ r.status = st

theorem func_assemble (e : Engine) (f : Func) (a b : Bytes) : (assemble e f a b).func = f := by
  cases e <;> cases f <;> rfl

theorem engine_assemble (e : Engine) (f : Func) (a b : Bytes) : (assemble e f a b).engine = e := by
  cases e <;> cases f <;> rfl

theorem exec_assemble_construct (e : Engine) (a b : Bytes) (s : State) :
    exec (assemble e .construct a b) s = construct Config.hardware e a b s := by
  cases e <;> rfl

theorem exec_assemble_setKey (e : Engine) (a b : Bytes) (s : State) :
    exec (assemble e .setKey a b) s = setKey Config.hardware e a s := by
  cases e <;> rfl

theorem exec_assemble_setIv (e : Engine) (a b : Bytes) (s : State) :
    exec (assemble e .setIv a b) s = setIv Config.hardware e a s := by
  cases e <;> rfl

theorem CanAnswer.of_deliver {e : Engine} {f : Func} {a b : Bytes} {s s' : State} {r : Response}
    (h : exec (assemble e f a b) s = .next (deliver r s')) (hs' : s'.responses = s.responses) : CanAnswer f e r.status :=
  ⟨_, s, r, func_assemble .., engine_assemble .., h ▸ answerOf_of_responses (congrArg (· ++ [r]) hs'), rfl⟩

/-- Sixteen zero bytes: a key, an IV, and a plaintext block with the pad byte 0. -/
def zeroBlock : Block := ⟨List.replicate 16 0x00, rfl⟩

/-- Both engines constructed with zero key and IV. -/
def zeroKeyed : State :=
  { State.reset with cbc := some ⟨zeroBlock, zeroBlock⟩, ctr := some ⟨zeroBlock, zeroBlock⟩ }

theorem engine_zeroKeyed (e : Engine) : zeroKeyed.engine e = some ⟨zeroBlock, zeroBlock⟩ := by cases e <;> rfl

theorem canAnswer_notConstructed {f : Func} (hf : f ≠ .construct) (e : Engine) : CanAnswer f e .notConstructed := by
  have hnone : State.reset.engine e = none := by cases e <;> rfl
  exact .of_deliver (a := []) (b := [])
    (exec_of_not_constructed (s := .reset) (by rwa [func_assemble]) (by rwa [engine_assemble])) rfl

theorem canAnswer_ok (f : Func) (e : Engine) : CanAnswer f e .ok := by
  have hlen := zeroBlock.length_eq
  have hs := engine_zeroKeyed e
  cases f with
  | construct =>
    exact .of_deliver
      ((exec_assemble_construct e _ _ zeroKeyed).trans (construct_of_lengths rfl e hlen hlen zeroKeyed)) (by simp)
  | setKey => exact .of_deliver ((exec_assemble_setKey e _ [] zeroKeyed).trans (setKey_of_length rfl hs hlen)) (by simp)
  | setIv => exact .of_deliver ((exec_assemble_setIv e _ [] zeroKeyed).trans (setIv_of_length rfl hs hlen)) (by simp)
  | encrypt =>
    cases e with
    | cbc => exact ⟨.cbcEncrypt [], zeroKeyed, _, rfl, rfl, answerOf_cbcEncrypt (P := Config.hardware) rfl hs [], rfl⟩
    | ctr => exact ⟨.ctrEncrypt [], zeroKeyed, _, rfl, rfl, answerOf_ctrData (P := Config.hardware) rfl hs .encrypt [], rfl⟩
  | decrypt =>
    cases e with
    | cbc =>
      obtain ⟨c, -, hc⟩ := cbcDecrypt_cbcEncrypt (P := Config.hardware) rfl hs hs []
      exact ⟨.cbcDecrypt c, zeroKeyed, _, rfl, rfl, hc, rfl⟩
    | ctr => exact ⟨.ctrDecrypt [], zeroKeyed, _, rfl, rfl, answerOf_ctrData (P := Config.hardware) rfl hs .decrypt [], rfl⟩

/-- An empty operand is no key and no IV (R192). -/
theorem canAnswer_invalidKeyIvLength {f : Func} (hf : f = .construct ∨ f = .setKey ∨ f = .setIv) (e : Engine) :
    CanAnswer f e .invalidKeyIvLength := by
  have hlen : ([] : Bytes).length ≠ 16 := by decide
  have hs := engine_zeroKeyed e
  obtain rfl | rfl | rfl := hf
  · exact .of_deliver ((exec_assemble_construct e [] [] zeroKeyed).trans (construct_of_bad_key rfl e hlen [] zeroKeyed)) rfl
  · exact .of_deliver ((exec_assemble_setKey e [] [] zeroKeyed).trans (setKey_of_bad_length rfl hs hlen)) rfl
  · exact .of_deliver ((exec_assemble_setIv e [] [] zeroKeyed).trans (setIv_of_bad_length rfl hs hlen)) rfl

/-- An empty ciphertext is malformed (R193). -/
theorem canAnswer_malformedCiphertextLength : CanAnswer .decrypt .cbc .malformedCiphertextLength :=
  .of_deliver (e := .cbc) (f := .decrypt) (a := []) (b := [])
    (cbcDecrypt_of_bad_length (P := Config.hardware) rfl (engine_zeroKeyed .cbc) (by decide)) rfl

/-- Whatever the primitive, any blocks are the plaintext of some ciphertext (R182). -/
theorem exists_cbcPlaintext_eq (P : Params) (inst : EngineInstance) (bs : List Block) :
    ∃ c, c.length = 16 * bs.length ∧ cbcPlaintext P inst c = concatBlocks bs := by
  refine ⟨concatBlocks (cbcChainEnc (P.E inst.key) inst.iv bs), ?_, ?_⟩
  · rw [length_concatBlocks, length_cbcChainEnc]
  · rw [cbcPlaintext, chunks_concatBlocks, cbcChainDec_cbcChainEnc]

/-- A ciphertext of one block that decrypts to the pad byte 0 (R194). -/
theorem canAnswer_padLengthError : CanAnswer .decrypt .cbc .padLengthError := by
  obtain ⟨c, hlen, hplain⟩ := exists_cbcPlaintext_eq Config.hardware ⟨zeroBlock, zeroBlock⟩ [zeroBlock]
  rw [List.length_singleton] at hlen
  have hanswer := answerOf_cbcDecrypt (P := Config.hardware) (a := c) rfl (engine_zeroKeyed .cbc) (by omega) (by omega)
  exact ⟨.cbcDecrypt c, zeroKeyed, _, rfl, rfl, hanswer, by rw [hplain]; rfl⟩

/-- Each entry of each row is met. -/
theorem canAnswer_of_mem_statusesOf (f : Func) (e : Engine) : ∀ st ∈ statusesOf f e, CanAnswer f e st := by
  have hok := canAnswer_ok f e
  cases f with
  | construct => simpa [statusesOf] using And.intro hok (canAnswer_invalidKeyIvLength (.inl rfl) e)
  | setKey =>
    simpa [statusesOf] using
      And.intro hok ⟨canAnswer_invalidKeyIvLength (.inr (.inl rfl)) e, canAnswer_notConstructed (f := .setKey) (by decide) e⟩
  | setIv =>
    simpa [statusesOf] using
      And.intro hok ⟨canAnswer_invalidKeyIvLength (.inr (.inr rfl)) e, canAnswer_notConstructed (f := .setIv) (by decide) e⟩
  | encrypt => simpa [statusesOf] using And.intro hok (canAnswer_notConstructed (f := .encrypt) (by decide) e)
  | decrypt =>
    have hnot := canAnswer_notConstructed (f := .decrypt) (by decide) e
    cases e with
    | cbc =>
      simpa [statusesOf] using And.intro hok ⟨canAnswer_malformedCiphertextLength, canAnswer_padLengthError, hnot⟩
    | ctr => simpa [statusesOf] using And.intro hok hnot

/-- Settles O52: the table's row holds the statuses of every answer, and each of them is met. -/
theorem commandsRaiseOnlyTheirErrors : Obligations.CommandsRaiseOnlyTheirErrors :=
  ⟨fun _ _ _ h => mayAnswer_iff_mem_statusesOf.mpr (status_mem_statusesOf h),
    fun _ _ _ h => canAnswer_of_mem_statusesOf _ _ _ (mayAnswer_iff_mem_statusesOf.mp h)⟩

end Sys2Proof.Machine
end

section
/-! SUPPORT and CERTIFICATE. The families 10_state.md and 70_reset_and_hazards.md: the state after reset, the reset step, and the
step with nothing to do. -/

namespace Sys2Proof.Machine

/-- Neither engine is constructed at reset (R34). -/
@[simp] theorem engine_reset (e : Engine) : State.reset.engine e = none := by cases e <;> rfl

/-- Settles O7: it is the idle case of the step. -/
theorem stepWaitsForTheHost : Obligations.StepWaitsForTheHost := fun _ => step_of_idle

/-- Settles O8: it is the reset case of the step, which does not look at the operation in progress. -/
theorem resetAbandonsTheOperation : Obligations.ResetAbandonsTheOperation := fun _ _ _ => step_of_reset

/-- Settles O9: the bit `CONSTRUCTED` says whether the engine is there, and at reset none is. -/
theorem resetStateHoldsNothing : Obligations.ResetStateHoldsNothing :=
  ⟨fun e => ⟨by rw [State.constructed, engine_reset, Option.isSome_none], engine_reset e⟩, rfl, rfl, rfl, rfl⟩

/-- Settles O13: at reset no command is counted and no response has been given. -/
theorem resetMeetsTheInvariant : Obligations.ResetMeetsTheInvariant where
  answered := Nat.le_refl 0
  legal _ hr := absurd hr List.not_mem_nil

end Sys2Proof.Machine
end

section
/-! SUPPORT and CERTIFICATE. 30_encoding.md section 7: the bytes of an operand, the operands, the comment and the head of a line
are each read back as they were written, so the line of a command reads as the command. -/

namespace Sys2Proof.Machine

/-! ### The bytes of an operand -/

@[simp] theorem hexText_cons (b : Byte) (bs : Bytes) :
    hexText (b :: bs) = hexDigit (b.extractLsb' 4 4) :: hexDigit (b.extractLsb' 0 4) :: hexText bs := rfl

/-- A byte is its two hex digits. -/
theorem extractLsb'_append_nibbles (b : Byte) : b.extractLsb' 4 4 ++ b.extractLsb' 0 4 = b :=
  (BitVec.extractLsb'_append_extractLsb'_eq_extractLsb' rfl).trans BitVec.extractLsb'_eq_self

theorem exists_hexDigit_of_mem_hexText {x : Char} {bs : Bytes} (h : x ∈ hexText bs) : ∃ n, x = hexDigit n := by
  obtain ⟨b, -, hx⟩ := List.mem_flatMap.mp h
  obtain hx | hx := List.mem_pair.mp hx
  · exact ⟨_, hx⟩
  · exact ⟨_, hx⟩

/-- Hex text holds no separator of operands, starts no comment, and has no space and no quotation mark in it. -/
theorem separators_not_mem_hexText (bs : Bytes) :
    ',' ∉ hexText bs ∧ ';' ∉ hexText bs ∧ ' ' ∉ hexText bs ∧ '"' ∉ hexText bs := by
  refine ⟨fun h => ?_, fun h => ?_, fun h => ?_, fun h => ?_⟩ <;>
  · obtain ⟨n, hn⟩ := exists_hexDigit_of_mem_hexText h
    simpa [← hn] using hexDigit_ne_separator n

theorem readHexDigits_hexText (bs : Bytes) : readHexDigits (hexText bs) = some bs := by
  induction bs with
  | nil => rfl
  | cons b bs ih => simp [readHexDigits, ih, extractLsb'_append_nibbles]

/-- Written bytes are never taken for the two quotation marks. -/
theorem readHex_hexText (bs : Bytes) : readHex (hexText bs) = some bs := by
  obtain ⟨-, -, -, hquote⟩ := separators_not_mem_hexText bs
  have hne : hexText bs ≠ ['"', '"'] := fun h => hquote (h ▸ List.mem_cons_self)
  rw [readHex, if_neg hne, readHexDigits_hexText]

/-! ### The operands of a line -/

theorem operandsText_of_k1 {i : Instr} (h : i.func.format = .k1) : operandsText i = hexText i.operandA := by
  simp [operandsText, h]

theorem operandsText_of_k2 {i : Instr} (h : i.func.format = .k2) :
    operandsText i = hexText i.operandA ++ [',', ' ', 'i', 'v', '='] ++ hexText i.operandB := by
  simp [operandsText, h]

/-- The first comma of a line of format K2 ends the first operand. -/
theorem readOperands_operandsText (i : Instr) :
    readOperands i.func (operandsText i) = some (i.operandA, i.operandB) := by
  cases h : i.func.format with
  | k1 => simp [readOperands, h, operandsText_of_k1 h, readHex_hexText, operandB_of_k1 h]
  | k2 =>
    obtain ⟨hcomma, -, -, -⟩ := separators_not_mem_hexText i.operandA
    have hpass : ∀ x ∈ hexText i.operandA, (x != ',') = true := fun x hx =>
      bne_iff_ne.mpr (ne_of_mem_of_not_mem hx hcomma)
    have hread : List.isPrefixOf? [',', ' ', 'i', 'v', '='] ([',', ' ', 'i', 'v', '='] ++ hexText i.operandB) =
        some (hexText i.operandB) := List.isPrefixOf?_eq_some_iff_append_eq.mpr rfl
    have hdrop : (operandsText i).dropWhile (· != ',') = [',', ' ', 'i', 'v', '='] ++ hexText i.operandB := by
      rw [operandsText_of_k2 h, List.append_assoc, List.dropWhile_append_of_pos hpass]
      rfl
    have htake : (operandsText i).takeWhile (· != ',') = hexText i.operandA := by
      rw [operandsText_of_k2 h, List.append_assoc, List.takeWhile_append_of_pos hpass]
      exact List.append_nil _
    simp only [readOperands, h, hdrop, htake, hread, readHex_hexText]

/-! ### The comment of a line -/

theorem stripComment_eq_rdropWhile (t : Text) : stripComment t = (t.takeWhile (· != ';')).rdropWhile (· == ' ') := rfl

theorem rdropWhile_space_eq_self {t : Text} (h : t.getLast? ≠ some ' ') : t.rdropWhile (· == ' ') = t := by
  rw [List.rdropWhile_eq_self_iff]
  intro ht hspace
  rw [List.getLast?_eq_some_getLast ht, eq_of_beq hspace] at h
  exact h rfl

/-- The text before the first semicolon is looked at only from its end. -/
theorem stripComment_append {t : Text} (hsemi : ';' ∉ t) (u : Text) :
    stripComment (t ++ u) = (t ++ u.takeWhile (· != ';')).rdropWhile (· == ' ') := by
  rw [stripComment_eq_rdropWhile,
    List.takeWhile_append_of_pos fun x hx => bne_iff_ne.mpr (ne_of_mem_of_not_mem hx hsemi)]

/-- A line with no comment and no space at its end is kept. -/
theorem stripComment_eq_self {t : Text} (hsemi : ';' ∉ t) (hlast : t.getLast? ≠ some ' ') : stripComment t = t := by
  have h := stripComment_append hsemi []
  rwa [List.takeWhile_nil, List.append_nil, rdropWhile_space_eq_self hlast] at h

/-- A comment goes, with the space before it. -/
theorem stripComment_append_comment {t : Text} (hsemi : ';' ∉ t) (hlast : t.getLast? ≠ some ' ') (comment : Text) :
    stripComment (t ++ ' ' :: ';' :: comment) = t := by
  have hspace : List.takeWhile (· != ';') (' ' :: ';' :: comment) = [' '] := rfl
  rw [stripComment_append hsemi, hspace, List.rdropWhile_concat_pos _ _ _ rfl, rdropWhile_space_eq_self hlast]

theorem semicolon_not_mem_lineHead (e : Engine) (f : Func) : ';' ∉ lineHead e f := by cases e <;> cases f <;> decide

theorem semicolon_not_mem_asmLine (i : Instr) : ';' ∉ asmLine i := by
  have hhead := semicolon_not_mem_lineHead i.engine i.func
  obtain ⟨-, hA, -, -⟩ := separators_not_mem_hexText i.operandA
  obtain ⟨-, hB, -, -⟩ := separators_not_mem_hexText i.operandB
  cases h : i.func.format with
  | k1 => simp [asmLine, operandsText_of_k1 h, hhead, hA]
  | k2 => simp [asmLine, operandsText_of_k2 h, hhead, hA, hB]

theorem getLast?_lineHead (e : Engine) (f : Func) : (lineHead e f).getLast? = some '=' := by
  cases e <;> cases f <;> rfl

/-- Bytes after an `=` put no space at the end, be there any or none. -/
theorem getLast?_append_hexText_ne_space {t : Text} (h : t.getLast? = some '=') (bs : Bytes) :
    (t ++ hexText bs).getLast? ≠ some ' ' := by
  obtain ⟨-, -, hspace, -⟩ := separators_not_mem_hexText bs
  rw [List.getLast?_append, ne_eq, Option.or_eq_some_iff, h]
  rintro (hlast | ⟨-, heq⟩)
  · exact hspace (List.mem_of_getLast? hlast)
  · exact absurd heq (by decide)

theorem getLast?_asmLine_ne_space (i : Instr) : (asmLine i).getLast? ≠ some ' ' := by
  cases h : i.func.format with
  | k1 =>
    rw [asmLine, operandsText_of_k1 h]
    exact getLast?_append_hexText_ne_space (getLast?_lineHead ..) _
  | k2 =>
    rw [asmLine, operandsText_of_k2 h, ← List.append_assoc]
    exact getLast?_append_hexText_ne_space (by simp) _

/-! ### The head of a line -/

theorem mem_lineHeads (e : Engine) (f : Func) : (e, f) ∈ lineHeads := by cases e <;> cases f <;> decide

/-- No head begins another one. -/
theorem eq_of_lineHead_prefix :
    ∀ p ∈ lineHeads, ∀ q ∈ lineHeads, lineHead p.1 p.2 <+: lineHead q.1 q.2 → p = q := by decide

/-- A line has one head. -/
theorem eq_of_lineHead_append_eq {p q : Engine × Func} {t u : Text}
    (h : lineHead p.1 p.2 ++ t = lineHead q.1 q.2 ++ u) : p = q := by
  have hp := mem_lineHeads p.1 p.2
  have hq := mem_lineHeads q.1 q.2
  obtain hpq | hqp := List.prefix_or_prefix_of_prefix ⟨t, h⟩ (List.prefix_append ..)
  · exact eq_of_lineHead_prefix p hp q hq hpq
  · exact (eq_of_lineHead_prefix q hq p hp hqp).symm

/-- The one head a line has, and the operands after it, give the command. -/
theorem readLine_of_head {t rest : Text} {e : Engine} {f : Func} {a b : Bytes}
    (hhead : stripComment t = lineHead e f ++ rest) (hoperands : readOperands f rest = some (a, b)) :
    readLine t = some (assemble e f a b) := by
  obtain ⟨before, after, hsplit, hbefore⟩ := List.eq_append_cons_of_mem (mem_lineHeads e f)
  refine List.findSome?_eq_some_iff.mpr ⟨before, (e, f), after, hsplit, ?_, fun p hp => ?_⟩
  · have hrest : List.isPrefixOf? (lineHead e f) (stripComment t) = some rest :=
      List.isPrefixOf?_eq_some_iff_append_eq.mpr hhead.symm
    simp [hrest, hoperands]
  · have hnone : List.isPrefixOf? (lineHead p.1 p.2) (stripComment t) = none := by
      rw [Option.eq_none_iff_forall_ne_some]
      intro u hu
      have heq := List.append_eq_of_isPrefixOf?_eq_some hu
      exact hbefore (eq_of_lineHead_append_eq (q := (e, f)) (heq.trans hhead) ▸ hp)
    simp [hnone]

theorem readLine_of_stripComment {t : Text} {i : Instr} (h : stripComment t = asmLine i) : readLine t = some i := by
  rw [readLine_of_head h (readOperands_operandsText i), assemble_parts]

/-- Settles O4: a line of a command, with a comment or without, has the line's one head and its operands. -/
theorem commandTextRoundTrip : Obligations.CommandTextRoundTrip :=
  ⟨fun i => readLine_of_stripComment (stripComment_eq_self (semicolon_not_mem_asmLine i) (getLast?_asmLine_ne_space i)),
    fun i comment => readLine_of_stripComment
      (stripComment_append_comment (semicolon_not_mem_asmLine i) (getLast?_asmLine_ne_space i) comment)⟩

end Sys2Proof.Machine
end
